-- ==== Sys2Proof/Word.lean ====
section
/-! DEFINITION. The widths the spec's registers come in (10_state.md R43): 8, 16 and 32 bits. -/

namespace Sys2Proof

/-- One byte of a frame, a buffer or an array register; an 8-bit register (00_scope.md R8). -/
abbrev Byte := BitVec 8

/-- A 16-bit register. -/
abbrev Half := BitVec 16

/-- A 32-bit register; the widest value a host access carries (20_memory.md R53). -/
abbrev Word := BitVec 32

/-- A 16-byte session identifier, byte 0 first on the wire (10_state.md R20, R32, R42). -/
abbrev Sid := Vector Byte 16

end Sys2Proof
end

