-- ==== Sys2Proof/Syntax.lean ====
section
/-! DEFINITION. The block's commands, one constructor for each row of spec/opcode_table.json (30_encoding.md R83).
A command has no operand fields: "every operand is in a fixed argument or buffer register". -/

namespace Sys2Proof

/-- The six commands a write to `CMD` can issue (30_encoding.md R83). -/
inductive Instr where
  /-- `NEW`, 40_packet_fields.md R103 -/
  | new
  /-- `SET_SYNC_ADDRESS`, 40_packet_fields.md R104 -/
  | setSyncAddress
  /-- `SET_SEQUENCE`, 40_packet_fields.md R105 -/
  | setSequence
  /-- `ADVANCE`, 40_packet_fields.md R106 -/
  | advance
  /-- `ENCODE`, 41_encode.md R120 -/
  | encode
  /-- `DECODE`, 42_decode.md R151 -/
  | decode
  deriving DecidableEq, Repr

end Sys2Proof
end

