-- ==== Sys2Proof/Decode.lean ====
section
/-! DEFINITION. The command word (30_encoding.md R83, R84, R86): decoder and encoder, both from the opcode map. -/

namespace Sys2Proof

/-- One row of the opcode map: the command word matches when `word &&& mask = pattern`. -/
structure OpcodeRow where
  pattern : Byte
  mask : Byte
  instr : Instr
  deriving DecidableEq, Repr

/-- The opcode map of 30_encoding.md R83; the whole byte is the opcode, so every mask is `0xFF` (R86). -/
def opcodeTable : List OpcodeRow :=
  [ ⟨0x01, 0xFF, .new⟩,
    ⟨0x02, 0xFF, .setSyncAddress⟩,
    ⟨0x03, 0xFF, .setSequence⟩,
    ⟨0x04, 0xFF, .advance⟩,
    ⟨0x05, 0xFF, .encode⟩,
    ⟨0x06, 0xFF, .decode⟩ ]

/-- What a command word stands for: a command, or a reserved opcode, named (30_encoding.md R84). -/
inductive Decoded where
  | command (i : Instr)
  | reserved (op : Byte)
  deriving DecidableEq, Repr

/-- The first row of `rows` that `op` matches. -/
def findRow (op : Byte) : List OpcodeRow → Option Instr
  | [] => none
  | r :: rows => if op &&& r.mask = r.pattern then some r.instr else findRow op rows

/-- The decoder: total on bytes; an opcode outside the map is reserved (30_encoding.md R83, R84). -/
def decode (op : Byte) : Decoded :=
  match findRow op opcodeTable with
  | some i => .command i
  | none => .reserved op

/-- The encoder: the byte the host writes to `CMD` for a command (30_encoding.md R83). -/
def encode : Instr → Byte
  | .new => 0x01
  | .setSyncAddress => 0x02
  | .setSequence => 0x03
  | .advance => 0x04
  | .encode => 0x05
  | .decode => 0x06

/-- The command word that bits `w` of a table row of `nbits` bits make: a `CMD` write stores its value "truncated to the
register's width", 8 bits (20_memory.md R53, 30_encoding.md R86, log entry 10). -/
def tableWordByte (nbits w : Nat) : Byte :=
  BitVec.ofNat 8 (w % 2 ^ nbits)

/-- The command the decoder reads from a table word, none for a reserved opcode. -/
def decodeTableWord (nbits w : Nat) : Option Instr :=
  match decode (tableWordByte nbits w) with
  | .command i => some i
  | .reserved _ => none

end Sys2Proof
end

