-- ==== Sys2Proof/Config.lean ====
section
/-! DEFINITION. What is fixed for one block: the parameters of 00_scope.md R7, the fixed sizes, and the values the spec
leaves unspecified (10_state.md R47, R48) as constants without a body. -/

namespace Sys2Proof

/-- A frame offset between two bounds: an illegal offset parameter cannot be written (00_scope.md R7, "legal values"). -/
abbrev OffsetIn (lo hi : Nat) := { n : Nat // lo ≤ n ∧ n ≤ hi }

/-- `P_ADDR_DECODE_MULT`, "255 or 256" (00_scope.md R7, 42_decode.md R156). -/
inductive AddrMult where
  | by255
  | by256
  deriving DecidableEq, Repr

/-- The multiplier as a number (42_decode.md R156). -/
def AddrMult.toNat : AddrMult → Nat
  | .by255 => 255
  | .by256 => 256

/-- The implementation parameters of 00_scope.md R7, each of a type that holds exactly its legal values.
`P_POSTAMBLE_SIZE` is fixed at 0 by R7 and so is no field. -/
structure Params where
  /-- `P_PREAMBLE_SIZE` -/
  preambleSize : Half
  /-- `P_ACN_PID`, 12 bytes -/
  acnPid : Vector Byte 12
  /-- `P_VECTOR_ROOT_EXTENDED` -/
  vectorRootExtended : Word
  /-- `P_VECTOR_SYNC` -/
  vectorSync : Word
  /-- `P_ADDR_DECODE_MULT` -/
  addrDecodeMult : AddrMult
  /-- `P_FI_PID_OFFSET` -/
  fiPidOffset : OffsetIn 4 15
  /-- `P_FI_PREAMBLE_OFFSET` -/
  fiPreambleOffset : OffsetIn 0 1
  /-- `P_FI_ENV_VEC_OFFSET` -/
  fiEnvVecOffset : OffsetIn 18 21
  /-- `P_FI_SYNC_VEC_OFFSET` -/
  fiSyncVecOffset : OffsetIn 40 43
  /-- `P_RX_CAP`, at least 47 -/
  rxCap : { n : Nat // 47 ≤ n }
  deriving DecidableEq, Repr

/-- The column "value taken" of 00_scope.md R7's table; `P_RX_CAP` is OPEN there and takes the 64 of the spec's vectors
(DESIGN CHOICE, log entry 3; that `State.reset` takes these values is log entry 5). -/
def Params.default : Params where
  preambleSize := 0x0010
  acnPid := #v[0x41, 0x53, 0x43, 0x2D, 0x45, 0x31, 0x2E, 0x31, 0x37, 0x00, 0x00, 0x00]
  vectorRootExtended := 0x00000008
  vectorSync := 0x00000001
  addrDecodeMult := .by255
  fiPidOffset := ⟨4, by decide⟩
  fiPreambleOffset := ⟨1, by decide⟩
  fiEnvVecOffset := ⟨21, by decide⟩
  fiSyncVecOffset := ⟨43, by decide⟩
  rxCap := ⟨64, by decide⟩

/-- The frame's byte count (30_encoding.md R70). -/
def frameLen : Nat := 49

/-- DECODE's length floor (42_decode.md R152). -/
def decodeFloor : Nat := 47

/-- The lowest and the highest valid sync address (40_packet_fields.md R100). -/
def addrMin : Nat := 1

/-- See `addrMin`. -/
def addrMax : Nat := 63999

/-! The values of the registers that reset leaves unspecified (10_state.md R47, R48: "The hardware returns an unspecified
value for it", "never as zero or as a fixed value"). They are constants with no body, applied to the number of resets so
far, so every reset leaves values of its own and no proof can see one (log entry 2). -/

/-- `ARG_SID[i]` after reset number `resets`. -/
opaque Config.unwrittenArgSid (resets i : Nat) : Byte

/-- `ARG_ADDR` after reset number `resets`. -/
opaque Config.unwrittenArgAddr (resets : Nat) : Word

/-- `ARG_SEQ` after reset number `resets`. -/
opaque Config.unwrittenArgSeq (resets : Nat) : Word

/-- `PKT_SID[i]` after reset number `resets`. -/
opaque Config.unwrittenPktSid (resets i : Nat) : Byte

/-- `PKT_ADDR` after reset number `resets`. -/
opaque Config.unwrittenPktAddr (resets : Nat) : Half

/-- `PKT_SEQ` after reset number `resets`. -/
opaque Config.unwrittenPktSeq (resets : Nat) : Byte

/-- `DEC_SID[i]` after reset number `resets`. -/
opaque Config.unwrittenDecSid (resets i : Nat) : Byte

/-- `DEC_ADDR` after reset number `resets`. -/
opaque Config.unwrittenDecAddr (resets : Nat) : Half

/-- `DEC_SEQ` after reset number `resets`. -/
opaque Config.unwrittenDecSeq (resets : Nat) : Byte

end Sys2Proof
end

