-- ==== Sys2Proof/Machine/Port.lean ====
section
/-! DEFINITION. The host register interface's names: the register map of 10_state.md R43, R44 and the accesses the host
can make (20_memory.md R51, R53, 70_reset_and_hazards.md R200). -/

namespace Sys2Proof.Machine

/-- The registers of 10_state.md R43, in its order. -/
inductive Reg where
  | cmd | status | errCode | errField | errInfo | errLo | errHi
  | argSid | argAddr | argSeq
  | pktSid | pktAddr | pktSeq
  | fiCtrl | fiSeqOffset | fiAddrOffset
  | txLen | txBuf
  | rxLen | rxBuf
  | decSid | decAddr | decSeq
  deriving DecidableEq, Repr

/-- Every register once. -/
def Reg.all : List Reg :=
  [.cmd, .status, .errCode, .errField, .errInfo, .errLo, .errHi, .argSid, .argAddr, .argSeq, .pktSid, .pktAddr, .pktSeq] ++
  [.fiCtrl, .fiSeqOffset, .fiAddrOffset, .txLen, .txBuf, .rxLen, .rxBuf, .decSid, .decAddr, .decSeq]

/-- The column "number" of 10_state.md R43. -/
def Reg.number : Reg → Byte
  | .cmd => 0x00
  | .status => 0x01
  | .errCode => 0x02
  | .errField => 0x03
  | .errInfo => 0x04
  | .errLo => 0x05
  | .errHi => 0x06
  | .argSid => 0x10
  | .argAddr => 0x11
  | .argSeq => 0x12
  | .pktSid => 0x20
  | .pktAddr => 0x21
  | .pktSeq => 0x22
  | .fiCtrl => 0x30
  | .fiSeqOffset => 0x31
  | .fiAddrOffset => 0x32
  | .txLen => 0x40
  | .txBuf => 0x41
  | .rxLen => 0x50
  | .rxBuf => 0x51
  | .decSid => 0x60
  | .decAddr => 0x61
  | .decSeq => 0x62

/-- The register with a number; a number outside the map is reserved (10_state.md R44). -/
def Reg.ofNumber (n : Byte) : Option Reg :=
  Reg.all.find? fun r => r.number == n

/-- How many indices a register has: an array's length, and 1 for a scalar register, which is "reached whole at index 0"
(10_state.md R43). -/
def Reg.length (p : Params) : Reg → Nat
  | .argSid | .pktSid | .decSid => 16
  | .txBuf => frameLen
  | .rxBuf => p.rxCap.val
  | .cmd | .status | .errCode | .errField | .errInfo | .errLo | .errHi | .argAddr | .argSeq | .pktAddr | .pktSeq
  | .fiCtrl | .fiSeqOffset | .fiAddrOffset | .txLen | .rxLen | .decAddr | .decSeq => 1

/-- The column "host access" of 10_state.md R43: may the host write the register? -/
def Reg.writable : Reg → Bool
  | .cmd | .argSid | .argAddr | .argSeq | .fiCtrl | .fiSeqOffset | .fiAddrOffset | .rxLen | .rxBuf => true
  | .status | .errCode | .errField | .errInfo | .errLo | .errHi | .pktSid | .pktAddr | .pktSeq | .txLen | .txBuf
  | .decSid | .decAddr | .decSeq => false

/-- One thing the world outside the block does to it. Every access is one atomic step (20_memory.md R52, R53).
The widths of an access are those of log entry 9 (DEDUCED). -/
inductive HostEvent where
  /-- `HostWrite(reg, i, v)` by register number; a write to `CMD` issues a command (20_memory.md R53, 10_state.md R31) -/
  | write (reg : Byte) (i : Nat) (v : Word)
  /-- `HostRead(reg, i)` by register number (20_memory.md R53) -/
  | read (reg : Byte) (i : Nat)
  /-- `HostWrite(reg, i, v)` where v is the value the host's last read returned: the `<value read>` of the `loopback`
  pseudo-instruction (30_encoding.md R88) -/
  | writeBack (reg : Byte) (i : Nat)
  /-- the reset input is asserted (70_reset_and_hazards.md R200) -/
  | reset
  deriving DecidableEq, Repr

end Sys2Proof.Machine
end

