-- ==== Sys2Proof/Machine/State.lean ====
section
/-! DEFINITION. The machine's state (10_state.md R20 to R47), the reasons a step can stop, and the state after reset. -/

namespace Sys2Proof.Machine

/-- A byte space, `TX` or `RX` (20_memory.md R50): its written bytes by rising offset. An offset that is not listed is
unwritten and has no value (10_state.md R48, log entry 6). -/
abbrev Memory := List Host.Cell

/-- The fields of a Packet: `PKT_SID`, `PKT_ADDR`, `PKT_SEQ` (10_state.md R20 to R22), and of the decoded one: `DEC_SID`,
`DEC_ADDR`, `DEC_SEQ` (R42). -/
structure Packet where
  sid : Sid
  addr : Half
  seq : Byte
  deriving DecidableEq, Repr

/-- The error registers `ERR_CODE`, `ERR_FIELD`, `ERR_INFO`, `ERR_LO`, `ERR_HI` (10_state.md R27 to R30). -/
structure ErrRegs where
  code : Byte
  field : Byte
  info : Word
  lo : Word
  hi : Word
  deriving DecidableEq, Repr

/-- The argument registers `ARG_SID`, `ARG_ADDR`, `ARG_SEQ` (10_state.md R32 to R34). -/
structure ArgRegs where
  sid : Sid
  addr : Word
  seq : Word
  deriving DecidableEq, Repr

/-- The fault configuration `FI_CTRL`, `FI_SEQ_OFFSET`, `FI_ADDR_OFFSET` (10_state.md R35 to R38). -/
structure FaultConfig where
  ctrl : Byte
  seqOffset : Byte
  addrOffset : Half
  deriving DecidableEq, Repr

/-- Which registers have been written since reset (10_state.md R48). `PKT_*` has no mark here: only NEW writes it, so it is
written exactly when `PKT_VALID` is 1 (R23). `dec` says that some DECODE has succeeded (R42). -/
structure Written where
  argSid : Vector Bool 16
  argAddr : Bool
  argSeq : Bool
  dec : Bool
  deriving DecidableEq, Repr

/-- The state of the block and of its port. -/
structure State where
  /-- the parameters, the same from reset on (10_state.md R46; log entry 1) -/
  params : Params
  /-- `STATUS` bit 0, `PKT_VALID` (10_state.md R23, R26) -/
  pktValid : Bool
  /-- `STATUS` bit 1, `DEC_VALID` (10_state.md R26) -/
  decValid : Bool
  /-- `ERR_*` (10_state.md R27 to R30) -/
  err : ErrRegs
  /-- `ARG_*` (10_state.md R32 to R34) -/
  arg : ArgRegs
  /-- the packet register `PKT_*` (10_state.md R20 to R22) -/
  pkt : Packet
  /-- `FI_*` (10_state.md R35 to R38) -/
  fi : FaultConfig
  /-- `TX_LEN` (10_state.md R39) -/
  txLen : Byte
  /-- `TX_BUF` (10_state.md R39) -/
  tx : Memory
  /-- `RX_LEN` (10_state.md R40) -/
  rxLen : Half
  /-- `RX_BUF` (10_state.md R41) -/
  rx : Memory
  /-- `DEC_*` (10_state.md R42) -/
  dec : Packet
  /-- the unwritten marks (10_state.md R48; log entry 2) -/
  written : Written
  /-- the model's own: what the host will do, next first (20_memory.md R62; log entry 4) -/
  inbox : List HostEvent
  /-- the model's own: the value the host's last read returned (20_memory.md R53; log entry 4) -/
  readData : Word
  /-- the model's own: resets so far, which the unspecified reset values are applied to (log entry 2) -/
  resets : Nat
  deriving DecidableEq, Repr

/-- Why a step stops. Both are the model faults of 10_state.md R48, and safe: the hardware goes on with an unspecified
value. -/
inductive Fault where
  /-- the host read `TX_BUF[off]` before any ENCODE wrote it; raised by the register port; safe -/
  | unwrittenTx (off : Nat)
  /-- DECODE or the host read `RX_BUF[off]` before the host wrote it (95_test_vectors.md V-X11); raised by DECODE and the
  register port; safe -/
  | unwrittenRx (off : Nat)
  deriving DecidableEq, Repr

/-- Why a command has no meaning. -/
inductive Refusal where
  /-- raised by `exec` for a command that has no meaning yet; safe (no command is left in this state) -/
  | notModelled (mnemonic : String)
  deriving DecidableEq, Repr

/-- A session identifier of unspecified bytes, written byte by byte so that each stands by itself. -/
def unspecifiedSid (byte : Nat → Byte) : Sid :=
  #v[byte 0, byte 1, byte 2, byte 3, byte 4, byte 5, byte 6, byte 7,
     byte 8, byte 9, byte 10, byte 11, byte 12, byte 13, byte 14, byte 15]

/-- The reset values of 10_state.md R47 for parameters `p`, after reset number `k`: the registers R47 gives a value have
it, the unspecified registers hold the bodiless constants of Config, and both buffers list nothing (R48). -/
def State.powerOn (p : Params) (k : Nat) : State where
  params := p
  pktValid := false
  decValid := false
  err := ⟨0, 0, 0, 0, 0⟩
  arg := ⟨unspecifiedSid (Config.unwrittenArgSid k), Config.unwrittenArgAddr k, Config.unwrittenArgSeq k⟩
  pkt := ⟨unspecifiedSid (Config.unwrittenPktSid k), Config.unwrittenPktAddr k, Config.unwrittenPktSeq k⟩
  fi := ⟨0, 0, 0⟩
  txLen := 0
  tx := []
  rxLen := 0
  rx := []
  dec := ⟨unspecifiedSid (Config.unwrittenDecSid k), Config.unwrittenDecAddr k, Config.unwrittenDecSeq k⟩
  written := ⟨Vector.replicate 16 false, false, false, false⟩
  inbox := []
  readData := 0
  resets := k

/-- The machine right after reset (10_state.md R47, 70_reset_and_hazards.md R201), with the default parameters of
00_scope.md R7 and a host that has asked for nothing. -/
def State.reset : State := State.powerOn Params.default 0

end Sys2Proof.Machine
end

