-- ==== Sys2Proof/Machine/Ops.lean ====
section
/-! DEFINITION. The named operations: byte order, the two byte spaces, raising an error and completing a command, and the
writes a command makes to the block's registers. -/

namespace Sys2Proof.Machine

/-! ## Byte order (00_scope.md R11, 20_memory.md R54) -/

/-- The `n` bytes of `v`, most significant first: byte `k` is `v[8*(n-1-k)+7 : 8*(n-1-k)]` (00_scope.md R11). -/
def beBytes : Nat → Nat → List Byte
  | 0, _ => []
  | n + 1, v => BitVec.ofNat 8 (v / 256 ^ n) :: beBytes n v

/-- The number a byte sequence stands for, most significant byte first (00_scope.md R11). -/
def beNat : List Byte → Nat
  | [] => 0
  | b :: bs => b.toNat * 256 ^ bs.length + beNat bs

/-- `bs` stored over a buffer `f` from offset `a` on (00_scope.md R11's `MemWrite` on a frame buffer). -/
def putBytes (f : List Byte) (a : Nat) : List Byte → List Byte
  | [] => f
  | b :: bs => putBytes (f.set a b) (a + 1) bs

/-! ## The byte spaces TX and RX (20_memory.md R50) -/

/-- The byte at offset `a`; none when it is unwritten (10_state.md R48). -/
def Memory.read : Memory → Nat → Option Byte
  | [], _ => none
  | (k, b) :: m, a => if k = a then some b else Memory.read m a

/-- Store `b` at offset `a`, keeping the offsets rising. -/
def Memory.write : Memory → Nat → Byte → Memory
  | [], a, b => [(a, b)]
  | (k, c) :: m, a, b =>
    if a < k then (a, b) :: (k, c) :: m
    else if a = k then (a, b) :: m
    else (k, c) :: Memory.write m a b

/-- Store bytes at rising offsets from `a` on. -/
def Memory.writeBytes (m : Memory) (a : Nat) : List Byte → Memory
  | [] => m
  | b :: bs => Memory.writeBytes (m.write a b) (a + 1) bs

/-- The canonical form: offsets strictly rising and inside a space of `size` bytes. -/
def Memory.wf (size : Nat) (m : Memory) : Bool :=
  (m.map Prod.fst).Pairwise (· < ·) ∧ m.all (fun c => decide (c.1 < size))

/-- The byte at `a`, or the fault `f a` where it is unwritten (10_state.md R48). -/
def Memory.readOr (m : Memory) (f : Nat → Fault) (a : Nat) : Except Fault Byte :=
  match m.read a with
  | some b => .ok b
  | none => .error (f a)

/-- The `n` bytes from offset `a` on, in order, or the fault at the first unwritten one. -/
def Memory.readVec (m : Memory) (f : Nat → Fault) (a : Nat) : (n : Nat) → Except Fault (Vector Byte n)
  | 0 => .ok #v[]
  | n + 1 =>
    match Memory.readVec m f a n with
    | .error e => .error e
    | .ok v =>
      match m.readOr f (a + n) with
      | .error e => .error e
      | .ok b => .ok (v.push b)

/-! ## Ending a command (60_exceptions.md R184, R185) -/

/-- `raise` (00_scope.md R12, 60_exceptions.md R184): the error registers take the error's values and nothing else
changes. An error is no trap: it "redirects nothing, saves no state beyond the error registers, changes no mode" (R189), so
this is the block's whole exception entry and there is no return (R190). -/
def State.raise (s : State) (e : ErrRegs) : State :=
  { s with err := e }

/-- A command completes without error: the error registers become 0 (60_exceptions.md R185). -/
def State.done (s : State) : State :=
  { s with err := ⟨0, 0, 0, 0, 0⟩ }

/-- DECODE's error: `DEC_VALID` becomes 0, then the error is raised (42_decode.md R159, 60_exceptions.md R184). -/
def State.raiseDecode (s : State) (e : ErrRegs) : State :=
  { s with decValid := false, err := e }

/-! ## What commands write -/

/-- NEW's writes: the packet register and `PKT_VALID` (40_packet_fields.md R103). -/
def State.putPacket (s : State) (p : Packet) : State :=
  { s with pkt := p, pktValid := true }

/-- `PKT_ADDR <- a` (40_packet_fields.md R104). -/
def State.putPktAddr (s : State) (a : Half) : State :=
  { s with pkt := { s.pkt with addr := a } }

/-- `PKT_SEQ <- q` (40_packet_fields.md R105, R106). -/
def State.putPktSeq (s : State) (q : Byte) : State :=
  { s with pkt := { s.pkt with seq := q } }

/-- ENCODE's writes: the frame into `TX_BUF` from offset 0 and 49 into `TX_LEN` (41_encode.md R120, R132). -/
def State.putFrame (s : State) (f : List Byte) : State :=
  { s with tx := s.tx.writeBytes 0 f, txLen := BitVec.ofNat 8 frameLen }

/-- A successful DECODE's writes: `DEC_*` and `DEC_VALID` (42_decode.md R158). -/
def State.putDecoded (s : State) (p : Packet) : State :=
  { s with dec := p, decValid := true, written := { s.written with dec := true } }

/-! ## The port's own operations -/

/-- The value a host read returned (20_memory.md R53). -/
def State.putReadData (s : State) (v : Word) : State :=
  { s with readData := v }

/-- Reset: "every piece of state in the value 10_state.md rule R47 gives, at once" (70_reset_and_hazards.md R200). The
parameters stay (10_state.md R46), and so do the host's own plans and the value it last read, which are no state of the
block (DEDUCED, log entry 8). -/
def State.assertReset (s : State) : State :=
  { State.powerOn s.params (s.resets + 1) with inbox := s.inbox, readData := s.readData }

end Sys2Proof.Machine
end

