-- ==== Sys2Proof/Machine/Flags.lean ====
section
/-! DEFINITION. Status and error values: the `STATUS` view, the error records of 60_exceptions.md R180, DECODE's mismatch
mask and ENCODE's switches. -/

namespace Sys2Proof.Machine

/-- Bit `b` of a register set when `c` holds. -/
def flagBit (c : Bool) (b : Nat) : Byte :=
  if c then BitVec.ofNat 8 (2 ^ b) else 0

/-- `STATUS`: bit 0 `PKT_VALID`, bit 1 `DEC_VALID`, bits 7:2 read as 0 (10_state.md R26). -/
def State.status (s : State) : Byte :=
  flagBit s.pktValid 0 ||| flagBit s.decValid 1

/-- An error record; the detail is stored mod 2^32 (60_exceptions.md R184). -/
def errRecord (code field : Byte) (info : Int) (lo hi : Word) : ErrRegs :=
  ⟨code, field, BitVec.ofInt 32 info, lo, hi⟩

/-- `VALIDATION` of the sync address `a` (40_packet_fields.md R101, 60_exceptions.md R180). -/
def errAddr (a : Int) : ErrRegs :=
  errRecord 1 1 a (BitVec.ofNat 32 addrMin) (BitVec.ofNat 32 addrMax)

/-- `VALIDATION` of the sequence `q` (40_packet_fields.md R102, 60_exceptions.md R180). -/
def errSeq (q : Int) : ErrRegs :=
  errRecord 1 2 q 0 255

/-- `DECODE_TOO_SHORT` for a buffer of `n` bytes (42_decode.md R152). -/
def errTooShort (n : Half) : ErrRegs :=
  errRecord 2 0 n.toNat 0 0

/-- `DECODE_VECTOR_MISMATCH` with mask `m` (42_decode.md R154). -/
def errVectorMismatch (m : Byte) : ErrRegs :=
  errRecord 3 0 m.toNat 0 0

/-- `NO_PACKET` raised by the command `op` (60_exceptions.md R186). -/
def errNoPacket (op : Byte) : ErrRegs :=
  errRecord 4 0 op.toNat 0 0

/-- `ILLEGAL_COMMAND` for the reserved opcode `op` (60_exceptions.md R187). -/
def errIllegal (op : Byte) : ErrRegs :=
  errRecord 5 0 op.toNat 0 0

/-- DECODE's mismatch mask: bit 0 when the envelope vector differs, bit 1 when the sync vector differs
(42_decode.md R151, R154). -/
def mismatchMask (envDiffers syncDiffers : Bool) : Byte :=
  flagBit envDiffers 0 ||| flagBit syncDiffers 1

/-- The bits of `FI_CTRL` that exist, 3:0; bits 7:4 ignore writes and read as 0 (10_state.md R35). -/
def fiCtrlBits (v : Byte) : Byte :=
  v &&& 0x0F

/-- Switch `b` of `FI_CTRL` (10_state.md R35). -/
abbrev FaultConfig.switch (f : FaultConfig) (b : Nat) : Bool :=
  f.ctrl.getLsbD b

end Sys2Proof.Machine
end

