-- ==== Sys2Proof/Machine/Operands.lean ====
section
/-! DEFINITION. Operands: how a command reads its arguments, its packet and its receive buffer, and the range checks it
applies to them (30_encoding.md R85). -/

namespace Sys2Proof.Machine

/-- `sext_32(ARG_ADDR)` (10_state.md R33). -/
def State.argAddrInt (s : State) : Int :=
  s.arg.addr.toInt

/-- `sext_32(ARG_SEQ)` (10_state.md R34). -/
def State.argSeqInt (s : State) : Int :=
  s.arg.seq.toInt

/-- `checkAddr(a)`: the error to raise when `a` is not in [1, 63999] (40_packet_fields.md R101). -/
def checkAddr (a : Int) : Option ErrRegs :=
  if (addrMin : Int) ≤ a ∧ a ≤ (addrMax : Int) then none else some (errAddr a)

/-- `checkSeq(q)`: the error to raise when `q` is not in [0, 255] (40_packet_fields.md R102). -/
def checkSeq (q : Int) : Option ErrRegs :=
  if 0 ≤ q ∧ q ≤ 255 then none else some (errSeq q)

/-- Constructing a Packet's checks: the address first, then the sequence (60_exceptions.md R188; 42_decode.md R157 applies
the same ones). -/
def checkPacket (a q : Int) : Option ErrRegs :=
  match checkAddr a with
  | some e => some e
  | none => checkSeq q

/-- Run `k` on a state that holds a packet; raise `NO_PACKET` for opcode `op` on one that holds none, "before reading any
other operand" (60_exceptions.md R186). -/
def State.withPacket (s : State) (op : Byte) (k : State → State) : State :=
  if s.pktValid then k s else s.raise (errNoPacket op)

/-- `RX_BUF[a]` (10_state.md R41, R48). -/
def State.rxByte (s : State) (a : Nat) : Except Fault Byte :=
  s.rx.readOr Fault.unwrittenRx a

/-- `MemRead(RX, a, n)`, the big-endian value of `n` bytes (00_scope.md R11). -/
def State.rxNat (s : State) (a n : Nat) : Except Fault Nat :=
  match s.rx.readVec Fault.unwrittenRx a n with
  | .error e => .error e
  | .ok v => .ok (beNat v.toList)

/-- The 16 bytes of `RX_BUF` from offset `a` on (42_decode.md R155). -/
def State.rxSid (s : State) (a : Nat) : Except Fault Sid :=
  s.rx.readVec Fault.unwrittenRx a 16

/-- `TX_BUF[a]` (10_state.md R39, R48). -/
def State.txByte (s : State) (a : Nat) : Except Fault Byte :=
  s.tx.readOr Fault.unwrittenTx a

end Sys2Proof.Machine
end

