-- ==== Sys2Proof/Machine/DecodeFrame.lean ====
section
/-! DEFINITION. DECODE (42_decode.md). -/

namespace Sys2Proof.Machine

/-- The decoded sync address, `P_ADDR_DECODE_MULT * high + low` (42_decode.md R156). -/
def decodedAddr (mult : AddrMult) (high low : Byte) : Nat :=
  mult.toNat * high.toNat + low.toNat

/-- Re-validation and the result: the Packet's range checks on the extracted values, then `DEC_*` (42_decode.md R157, R158,
R159). -/
def State.acceptDecoded (s : State) (sid : Sid) (seq : Byte) (a : Nat) : State :=
  match checkPacket a seq.toNat with
  | some e => s.raiseDecode e
  | none => (s.putDecoded ⟨sid, BitVec.ofNat 16 a, seq⟩).done

/-- Extraction from a buffer that passed the structural checks (42_decode.md R155, R156). -/
def State.extractDecoded (s : State) : Except Fault State := do
  let sid ← s.rxSid 22
  let seq ← s.rxByte 44
  let high ← s.rxByte 45
  let low ← s.rxByte 46
  return s.acceptDecoded sid seq (decodedAddr s.params.addrDecodeMult high low)

/-- DECODE on a buffer of at least 47 bytes: the two vector checks, both always made, then extraction (42_decode.md R151,
R153, R154). The order of the reads decides which unwritten byte a fault names (log entry 7). -/
def State.decodeLong (s : State) : Except Fault State := do
  let env ← s.rxNat 18 4
  let syn ← s.rxNat 40 4
  let m := mismatchMask (env != s.params.vectorRootExtended.toNat) (syn != s.params.vectorSync.toNat)
  if m ≠ 0 then return s.raiseDecode (errVectorMismatch m)
  s.extractDecoded

/-- A state that was reached, or the model fault met on the way (10_state.md R48). -/
def outcomeOf : Except Fault State → Host.Outcome State Fault Refusal
  | .ok s => .next s
  | .error e => .fault e

/-- `DECODE` (42_decode.md R151): the length floor comes "before every byte read" (R152). -/
def execDecode (s : State) : Host.Outcome State Fault Refusal :=
  if s.rxLen.toNat < decodeFloor then .next (s.raiseDecode (errTooShort s.rxLen)) else outcomeOf s.decodeLong

end Sys2Proof.Machine
end

