-- ==== Sys2Proof/Machine/EncodeFrame.lean ====
section
/-! DEFINITION. The synchronization frame (30_encoding.md R70 to R81), fault injection and ENCODE (41_encode.md). -/

namespace Sys2Proof.Machine

/-- `FL(L)`, the flags+length field holding length `L` (30_encoding.md R72). -/
def flagsLength (len : Nat) : Nat :=
  (0x7 <<< 12) ||| len

/-- `Frame(sid, addr, seq)`, the conformant frame, field after field (41_encode.md R121, 30_encoding.md R71). -/
def frame (p : Params) (pk : Packet) : List Byte :=
  beBytes 2 p.preambleSize.toNat ++ beBytes 2 0x0000 ++ p.acnPid.toList ++
  beBytes 2 (flagsLength (frameLen - 16)) ++ beBytes 4 p.vectorRootExtended.toNat ++ pk.sid.toList ++
  beBytes 2 (flagsLength (frameLen - 38)) ++ beBytes 4 p.vectorSync.toNat ++ [pk.seq] ++
  beBytes 2 pk.addr.toNat ++ beBytes 2 0x0000

/-- The wire sequence byte, the sum mod 256 (41_encode.md R122). -/
def wireSeq (pk : Packet) (f : FaultConfig) : Byte :=
  pk.seq + f.seqOffset

/-- The wire sync address, the sum mod 65536 (41_encode.md R123). -/
def wireAddr (pk : Packet) (f : FaultConfig) : Half :=
  pk.addr + f.addrOffset

/-- `if c: F[off] <- 0x00` (41_encode.md R124). -/
def zeroIf (c : Bool) (off : Nat) (f : List Byte) : List Byte :=
  if c then f.set off 0x00 else f

/-- `if c: F[off] <- ~F[off]` (41_encode.md R125 to R127). -/
def complementIf (c : Bool) (off : Nat) (f : List Byte) : List Byte :=
  if c then f.modify off (~~~ ·) else f

/-- The frame ENCODE writes: the conformant frame with the fault configuration's six effects, in the order of
41_encode.md R120. -/
def wireFrame (p : Params) (pk : Packet) (f : FaultConfig) : List Byte :=
  let f0 := (frame p pk).set 44 (wireSeq pk f)
  let f1 := putBytes f0 45 (beBytes 2 (wireAddr pk f).toNat)
  let f2 := zeroIf (f.switch 0) p.fiPidOffset.val f1
  let f3 := complementIf (f.switch 1) p.fiPreambleOffset.val f2
  let f4 := complementIf (f.switch 2) p.fiEnvVecOffset.val f3
  complementIf (f.switch 3) p.fiSyncVecOffset.val f4

/-- `ENCODE` (41_encode.md R120). -/
def execEncode (s : State) : Host.Outcome State Fault Refusal :=
  .next <| s.withPacket 0x05 fun s => (s.putFrame (wireFrame s.params s.pkt s.fi)).done

end Sys2Proof.Machine
end

