-- ==== Sys2Proof/Machine/PacketFields.lean ====
section
/-! DEFINITION. NEW, SET_SYNC_ADDRESS, SET_SEQUENCE and ADVANCE (40_packet_fields.md). -/

namespace Sys2Proof.Machine

/-- `NEW` (40_packet_fields.md R103). -/
def execNew (s : State) : Host.Outcome State Fault Refusal :=
  .next <|
    match checkPacket s.argAddrInt s.argSeqInt with
    | some e => s.raise e
    | none => (s.putPacket ⟨s.arg.sid, BitVec.ofInt 16 s.argAddrInt, BitVec.ofInt 8 s.argSeqInt⟩).done

/-- `SET_SYNC_ADDRESS` (40_packet_fields.md R104). -/
def execSetSyncAddress (s : State) : Host.Outcome State Fault Refusal :=
  .next <| s.withPacket 0x02 fun s =>
    match checkAddr s.argAddrInt with
    | some e => s.raise e
    | none => (s.putPktAddr (BitVec.ofInt 16 s.argAddrInt)).done

/-- `SET_SEQUENCE` (40_packet_fields.md R105). -/
def execSetSequence (s : State) : Host.Outcome State Fault Refusal :=
  .next <| s.withPacket 0x03 fun s =>
    match checkSeq s.argSeqInt with
    | some e => s.raise e
    | none => (s.putPktSeq (BitVec.ofInt 8 s.argSeqInt)).done

/-- `ADVANCE`: the sequence plus 1, mod 256 (40_packet_fields.md R106). -/
def execAdvance (s : State) : Host.Outcome State Fault Refusal :=
  .next <| s.withPacket 0x04 fun s => (s.putPktSeq (s.pkt.seq + 1)).done

end Sys2Proof.Machine
end

