-- ==== Sys2Proof/Machine/Dispatch.lean ====
section
/-! DEFINITION. One arm per command. -/

namespace Sys2Proof.Machine

/-- The meaning of a command: one atomic step of the block (20_memory.md R52). -/
def exec (i : Instr) (s : State) : Host.Outcome State Fault Refusal :=
  match i with
  | .new => Sys2Proof.Machine.execNew s
  | .setSyncAddress => Sys2Proof.Machine.execSetSyncAddress s
  | .setSequence => Sys2Proof.Machine.execSetSequence s
  | .advance => Sys2Proof.Machine.execAdvance s
  | .encode => Sys2Proof.Machine.execEncode s
  | .decode => Sys2Proof.Machine.execDecode s

end Sys2Proof.Machine
end

