-- ==== Sys2Proof/Machine/HostPort.lean ====
section
/-! DEFINITION. The register port (10_state.md R43, R44, 20_memory.md R53 to R59): host reads, host writes, the command
port `CMD`, and reset. -/

namespace Sys2Proof.Machine

/-- Issue the command word `op`: the command it stands for, or `ILLEGAL_COMMAND` (30_encoding.md R83, R84,
60_exceptions.md R187). -/
def issue (op : Byte) (s : State) : Host.Outcome State Fault Refusal :=
  match decode op with
  | .command i => exec i s
  | .reserved op => .next (s.raise (errIllegal op))

/-- The value of register `r` at an index inside it (10_state.md R43); `CMD` reads as 0 (R31), and so do the reserved bits
of `FI_CTRL` (R35) and `STATUS` (R26). -/
def State.readReg (s : State) (r : Reg) (i : Nat) : Except Fault Word :=
  match r with
  | .cmd => .ok 0
  | .status => .ok (s.status.setWidth 32)
  | .errCode => .ok (s.err.code.setWidth 32)
  | .errField => .ok (s.err.field.setWidth 32)
  | .errInfo => .ok s.err.info
  | .errLo => .ok s.err.lo
  | .errHi => .ok s.err.hi
  | .argSid => .ok ((s.arg.sid[i]?.getD 0).setWidth 32)
  | .argAddr => .ok s.arg.addr
  | .argSeq => .ok s.arg.seq
  | .pktSid => .ok ((s.pkt.sid[i]?.getD 0).setWidth 32)
  | .pktAddr => .ok (s.pkt.addr.setWidth 32)
  | .pktSeq => .ok (s.pkt.seq.setWidth 32)
  | .fiCtrl => .ok ((fiCtrlBits s.fi.ctrl).setWidth 32)
  | .fiSeqOffset => .ok (s.fi.seqOffset.setWidth 32)
  | .fiAddrOffset => .ok (s.fi.addrOffset.setWidth 32)
  | .txLen => .ok (s.txLen.setWidth 32)
  | .txBuf => (s.txByte i).map (·.setWidth 32)
  | .rxLen => .ok (s.rxLen.setWidth 32)
  | .rxBuf => (s.rxByte i).map (·.setWidth 32)
  | .decSid => .ok ((s.dec.sid[i]?.getD 0).setWidth 32)
  | .decAddr => .ok (s.dec.addr.setWidth 32)
  | .decSeq => .ok (s.dec.seq.setWidth 32)

/-- `HostRead(reg, i)`: a reserved register or an index outside the register reads 0 (10_state.md R44, 20_memory.md R57). -/
def State.hostRead (s : State) (reg : Byte) (i : Nat) : Except Fault Word :=
  match Reg.ofNumber reg with
  | none => .ok 0
  | some r => if i < r.length s.params then s.readReg r i else .ok 0

/-- Store a value, "truncated to the register's width" (20_memory.md R53), in a register the host may write other than
`CMD`; on any other register the write is ignored (R58). -/
def State.writeReg (s : State) (r : Reg) (i : Nat) (v : Word) : State :=
  match r with
  | .argSid => { s with arg := { s.arg with sid := s.arg.sid.setIfInBounds i (v.setWidth 8) },
                        written := { s.written with argSid := s.written.argSid.setIfInBounds i true } }
  | .argAddr => { s with arg := { s.arg with addr := v }, written := { s.written with argAddr := true } }
  | .argSeq => { s with arg := { s.arg with seq := v }, written := { s.written with argSeq := true } }
  | .fiCtrl => { s with fi := { s.fi with ctrl := fiCtrlBits (v.setWidth 8) } }
  | .fiSeqOffset => { s with fi := { s.fi with seqOffset := v.setWidth 8 } }
  | .fiAddrOffset => { s with fi := { s.fi with addrOffset := v.setWidth 16 } }
  | .rxLen => { s with rxLen := v.setWidth 16 }
  | .rxBuf => { s with rx := s.rx.write i (v.setWidth 8) }
  | .cmd | .status | .errCode | .errField | .errInfo | .errLo | .errHi | .pktSid | .pktAddr | .pktSeq | .txLen | .txBuf
  | .decSid | .decAddr | .decSeq => s

/-- `HostWrite(reg, i, v)`: a write to `CMD` issues a command; any other write stores its value, and is ignored on a reserved
register, a read-only register or an index outside the register (10_state.md R31, R44, 20_memory.md R53, R57, R58). -/
def State.hostWrite (s : State) (reg : Byte) (i : Nat) (v : Word) : Host.Outcome State Fault Refusal :=
  match Reg.ofNumber reg with
  | none => .next s
  | some r =>
    if i < r.length s.params then
      if r = .cmd then issue (v.setWidth 8) s else .next (s.writeReg r i v)
    else .next s

/-- What one event does to the block. -/
def perform (e : HostEvent) (s : State) : Host.Outcome State Fault Refusal :=
  match e with
  | .write reg i v => s.hostWrite reg i v
  | .read reg i =>
    match s.hostRead reg i with
    | .ok v => .next (s.putReadData v)
    | .error f => .fault f
  | .writeBack reg i => s.hostWrite reg i s.readData
  | .reset => .next s.assertReset

/-- The next event and the state without it; none when the host has asked for nothing more. -/
def State.takeEvent (s : State) : Option (HostEvent × State) :=
  match s.inbox with
  | [] => none
  | e :: rest => some (e, { s with inbox := rest })

/-- The state with one more event before all others. -/
def State.pushEvent (s : State) (e : HostEvent) : State :=
  { s with inbox := e :: s.inbox }

end Sys2Proof.Machine
end

