-- ==== Sys2Proof/Machine/Step.lean ====
section
/-! DEFINITION. One step: the block takes the host's next event in the order issued (20_memory.md R62), and waits while
there is none (70_reset_and_hazards.md R202). -/

namespace Sys2Proof.Machine

/-- One step of the machine; with no event to take it waits (DEDUCED, log entry 11). -/
def step (s : State) : Host.Outcome State Fault Refusal :=
  match s.takeEvent with
  | none => .next s
  | some (e, s') => perform e s'

/-- `s` with the host's next access a write of the command word to `CMD`, so that the very next step issues it
(10_state.md R31, log entry 4). -/
def State.withFetchWord (s : State) (nbits w : Nat) : State :=
  s.pushEvent (.write Reg.cmd.number 0 ((tableWordByte nbits w).setWidth 32))

end Sys2Proof.Machine
end

