-- ==== Sys2Proof/Machine/Script.lean ====
section
/-! DEFINITION. Host scripts (30_encoding.md R88): the lines a host program is written in, the host accesses each expands to,
and the reading of a line's text. The block itself knows none of this: a script only says what the host does next.
What the spec leaves open about a line's text is log entry 12 (DESIGN CHOICE). -/

namespace Sys2Proof.Machine

/-- A line of a host script: a host access, a command, or a pseudo-instruction (30_encoding.md R88). -/
inductive HostLine where
  /-- `wr REG, v` -/
  | wr (r : Reg) (v : Int)
  /-- `wr REG[i], v` -/
  | wrAt (r : Reg) (i : Nat) (v : Int)
  /-- `rd REG` -/
  | rd (r : Reg)
  /-- `rd REG[i]` -/
  | rdAt (r : Reg) (i : Nat)
  /-- `new`, `setaddr`, `setseq`, `advance`, `encode`, `decode` -/
  | command (c : Instr)
  /-- `wrb REG, b0 b1 ... bn` -/
  | wrb (r : Reg) (bytes : List Int)
  /-- `new sid, a, s` -/
  | newWith (sid : List Int) (a q : Int)
  /-- `new.d sid, a` -/
  | newDefault (sid : List Int) (a : Int)
  /-- `setaddr a` -/
  | setaddrWith (a : Int)
  /-- `setseq s` -/
  | setseqWith (q : Int)
  /-- `loopback` -/
  | loopback
  /-- `fi c, so, ao` -/
  | fi (c so ao : Int)
  deriving DecidableEq, Repr

/-- `HostWrite(r, i, v)`; a negative number denotes its "32-bit two's-complement pattern" (30_encoding.md R88). -/
def writeEvent (r : Reg) (i : Nat) (v : Int) : HostEvent :=
  .write r.number i (BitVec.ofInt 32 v)

/-- The writes of `wrb`, from index `i` on (30_encoding.md R88). -/
def writeBytesEvents (r : Reg) (i : Nat) : List Int → List HostEvent
  | [] => []
  | b :: bs => writeEvent r i b :: writeBytesEvents r (i + 1) bs

/-- `HostWrite(CMD, 0, op)` for a command (30_encoding.md R88). -/
def commandEvent (c : Instr) : HostEvent :=
  .write Reg.cmd.number 0 ((encode c).setWidth 32)

/-- The copying of `loopback`: for i = 0..48, `rd TX_BUF[i]`, then `wr RX_BUF[i]` with the value read
(30_encoding.md R88). -/
def copyEvents : List HostEvent :=
  (List.range frameLen).flatMap fun i => [.read Reg.txBuf.number i, .writeBack Reg.rxBuf.number i]

/-- The host accesses of a line (30_encoding.md R88). -/
def HostLine.expand : HostLine → List HostEvent
  | .wr r v => [writeEvent r 0 v]
  | .wrAt r i v => [writeEvent r i v]
  | .rd r => [.read r.number 0]
  | .rdAt r i => [.read r.number i]
  | .command c => [commandEvent c]
  | .wrb r bytes => writeBytesEvents r 0 bytes
  | .newWith sid a q =>
    writeBytesEvents .argSid 0 sid ++ [writeEvent .argAddr 0 a, writeEvent .argSeq 0 q, commandEvent .new]
  | .newDefault sid a =>
    writeBytesEvents .argSid 0 sid ++ [writeEvent .argAddr 0 a, writeEvent .argSeq 0 0, commandEvent .new]
  | .setaddrWith a => [writeEvent .argAddr 0 a, commandEvent .setSyncAddress]
  | .setseqWith q => [writeEvent .argSeq 0 q, commandEvent .setSequence]
  | .loopback => copyEvents ++ [writeEvent .rxLen 0 49]
  | .fi c so ao => [writeEvent .fiCtrl 0 c, writeEvent .fiSeqOffset 0 so, writeEvent .fiAddrOffset 0 ao]

/-- The host accesses of a script, in order (20_memory.md R62). -/
def expandScript (lines : List HostLine) : List HostEvent :=
  lines.flatMap HostLine.expand

/-! ## Reading a line's text -/

/-- A register's name as 10_state.md R43 writes it. -/
def Reg.name : Reg → String
  | .cmd => "CMD"
  | .status => "STATUS"
  | .errCode => "ERR_CODE"
  | .errField => "ERR_FIELD"
  | .errInfo => "ERR_INFO"
  | .errLo => "ERR_LO"
  | .errHi => "ERR_HI"
  | .argSid => "ARG_SID"
  | .argAddr => "ARG_ADDR"
  | .argSeq => "ARG_SEQ"
  | .pktSid => "PKT_SID"
  | .pktAddr => "PKT_ADDR"
  | .pktSeq => "PKT_SEQ"
  | .fiCtrl => "FI_CTRL"
  | .fiSeqOffset => "FI_SEQ_OFFSET"
  | .fiAddrOffset => "FI_ADDR_OFFSET"
  | .txLen => "TX_LEN"
  | .txBuf => "TX_BUF"
  | .rxLen => "RX_LEN"
  | .rxBuf => "RX_BUF"
  | .decSid => "DEC_SID"
  | .decAddr => "DEC_ADDR"
  | .decSeq => "DEC_SEQ"

/-- The words of a line: cut at blanks, with `,`, `[` and `]` words of their own; `;` starts a comment
(30_encoding.md R88). `cur` is the word being read, last character first. -/
def cutWords (cur : List Char) : List Char → List (List Char)
  | [] => flush cur []
  | c :: cs =>
    if c = ';' then flush cur []
    else if c = ' ' ∨ c = '\t' then flush cur (cutWords [] cs)
    else if c = ',' ∨ c = '[' ∨ c = ']' then flush cur ([c] :: cutWords [] cs)
    else cutWords (c :: cur) cs
where
  /-- The word just read, if there is one, before the words that follow. -/
  flush (cur : List Char) (rest : List (List Char)) : List (List Char) :=
    if cur.isEmpty then rest else cur.reverse :: rest

/-- The value of a digit in base 16 (and so in base 10). -/
def digitValue (c : Char) : Option Nat :=
  let n := c.toNat
  if 48 ≤ n ∧ n ≤ 57 then some (n - 48)
  else if 65 ≤ n ∧ n ≤ 70 then some (n - 55)
  else if 97 ≤ n ∧ n ≤ 102 then some (n - 87)
  else none

/-- Digits in a base, most significant first, after the value `acc` of those already read. -/
def readDigits (base acc : Nat) : List Char → Option Nat
  | [] => some acc
  | c :: cs =>
    match digitValue c with
    | some d => if d < base then readDigits base (base * acc + d) cs else none
    | none => none

/-- An unsigned number, decimal or `0x` hexadecimal (30_encoding.md R88). -/
def readNat : List Char → Option Nat
  | [] => none
  | '0' :: 'x' :: c :: cs => readDigits 16 0 (c :: cs)
  | c :: cs => readDigits 10 0 (c :: cs)

/-- A number: decimal, `0x` hexadecimal or negative decimal (30_encoding.md R88). -/
def readInt : List Char → Option Int
  | '-' :: c :: cs => (readDigits 10 0 (c :: cs)).map fun n => -(n : Int)
  | cs => (readNat cs).map Int.ofNat

/-- A byte string: numbers one after another; `b xN` is N bytes `b` (95_test_vectors.md, Notation). -/
def readBytes : List (List Char) → Option (List Int)
  | [] => some []
  | [w] => (readInt w).map fun b => [b]
  | w :: v :: ws =>
    match readInt w, v with
    | some b, 'x' :: n =>
      match readDigits 10 0 n, readBytes ws with
      | some k, some bs => some (List.replicate k b ++ bs)
      | _, _ => none
    | some b, _ => (readBytes (v :: ws)).map (b :: ·)
    | none, _ => none

/-- A session identifier: a byte string, or one of the names `S1` and `S2` of 95_test_vectors.md, Notation. -/
def readSid : List (List Char) → Option (List Int)
  | [['S', '1']] => some (List.replicate 16 1)
  | [['S', '2']] => some ((List.range 16).map Int.ofNat)
  | ws => readBytes ws

/-- A register by its name. -/
def readReg (w : List Char) : Option Reg :=
  Reg.all.find? fun r => r.name.toList == w

/-- The operands of a line: its words between commas. `cur` is the operand being read, last word first. -/
def cutOperands (cur : List (List Char)) : List (List Char) → List (List (List Char))
  | [] => [cur.reverse]
  | w :: ws => if w = [','] then cur.reverse :: cutOperands [] ws else cutOperands (w :: cur) ws

/-- A register with an index, `REG[i]`. -/
def readIndexed : List (List Char) → Option (Reg × Nat)
  | [r, ['['], i, [']']] =>
    match readReg r, readNat i with
    | some r, some i => some (r, i)
    | _, _ => none
  | _ => none

/-- The operands of the line `op`, given the operands' words (30_encoding.md R88's two tables). -/
def readOperands (op : List Char) (operands : List (List (List Char))) : Option HostLine :=
  if op = "wr".toList then
    match operands with
    | [[r], [v]] => (readReg r).bind fun r => (readInt v).map fun v => .wr r v
    | [ri, [v]] => (readIndexed ri).bind fun ri => (readInt v).map fun v => .wrAt ri.1 ri.2 v
    | _ => none
  else if op = "rd".toList then
    match operands with
    | [[r]] => (readReg r).map .rd
    | [ri] => (readIndexed ri).map fun ri => .rdAt ri.1 ri.2
    | _ => none
  else if op = "wrb".toList then
    match operands with
    | [[r], bs] => (readReg r).bind fun r => (readBytes bs).map fun bs => .wrb r bs
    | _ => none
  else if op = "new".toList then
    match operands with
    | [[]] => some (.command .new)
    | [sid, [a], [q]] =>
      (readSid sid).bind fun sid => (readInt a).bind fun a => (readInt q).map fun q => .newWith sid a q
    | _ => none
  else if op = "new.d".toList then
    match operands with
    | [sid, [a]] => (readSid sid).bind fun sid => (readInt a).map fun a => .newDefault sid a
    | _ => none
  else if op = "setaddr".toList then
    match operands with
    | [[]] => some (.command .setSyncAddress)
    | [[a]] => (readInt a).map .setaddrWith
    | _ => none
  else if op = "setseq".toList then
    match operands with
    | [[]] => some (.command .setSequence)
    | [[q]] => (readInt q).map .setseqWith
    | _ => none
  else if op = "fi".toList then
    match operands with
    | [[c], [so], [ao]] => (readInt c).bind fun c => (readInt so).bind fun so => (readInt ao).map fun ao => .fi c so ao
    | _ => none
  else if operands = [[]] then
    if op = "advance".toList then some (.command .advance)
    else if op = "encode".toList then some (.command .encode)
    else if op = "decode".toList then some (.command .decode)
    else if op = "loopback".toList then some .loopback
    else none
  else none

/-- What a line of text is. -/
inductive ReadLine where
  | blank
  | line (l : HostLine)
  | illFormed
  deriving DecidableEq, Repr

/-- Read a line of a host script (30_encoding.md R88). -/
def readLine (text : List Char) : ReadLine :=
  match cutWords [] text with
  | [] => .blank
  | op :: ws =>
    match readOperands op (cutOperands [] ws) with
    | some l => .line l
    | none => .illFormed

end Sys2Proof.Machine
end

