-- ==== Sys2Proof/WellFormed.lean ====
section
/-! DEFINITION. What is well formed: a command word that names a command, a length that a flags+length field holds, a host
access that the register map gives an effect, and a line of a host script. A command itself has no operand field
(30_encoding.md R83), so every term of Instr is well formed. An ill-formed access is still defined (it reads 0 and is
ignored, 10_state.md R44, 20_memory.md R57, R58), and so is a reserved command word (30_encoding.md R84). -/

namespace Sys2Proof

/-- A command is well formed when its word is not reserved (30_encoding.md R83, R84); every command is. -/
def Instr.wf (i : Instr) : Bool :=
  decide (1 ≤ (Sys2Proof.encode i).toNat ∧ (Sys2Proof.encode i).toNat ≤ 6)

/-- A command word that names a command: opcodes 0x00 and 0x07 to 0xFF are reserved (30_encoding.md R84). -/
def commandWordWf (op : Byte) : Bool :=
  decide (1 ≤ op.toNat ∧ op.toNat ≤ 6)

/-- A length a flags+length field holds, 0 to 4095 (30_encoding.md R72). -/
def flagsLengthWf (len : Nat) : Bool :=
  decide (len ≤ 4095)

namespace Machine

/-- A register reached byte by byte (10_state.md R43). -/
def Reg.isArray : Reg → Bool
  | .argSid | .pktSid | .txBuf | .rxBuf | .decSid => true
  | .cmd | .status | .errCode | .errField | .errInfo | .errLo | .errHi | .argAddr | .argSeq | .pktAddr | .pktSeq
  | .fiCtrl | .fiSeqOffset | .fiAddrOffset | .txLen | .rxLen | .decAddr | .decSeq => false

/-- An access to a register of the map at an index inside it, and for a write one the host may write
(10_state.md R43, R44, 20_memory.md R57, R58). -/
def HostEvent.wf (p : Params) : HostEvent → Bool
  | .write reg i _ | .writeBack reg i =>
    match Reg.ofNumber reg with
    | some r => r.writable && decide (i < r.length p)
    | none => false
  | .read reg i =>
    match Reg.ofNumber reg with
    | some r => decide (i < r.length p)
    | none => false
  | .reset => true

/-- A number a 32-bit value stands for, unsigned or as two's complement (30_encoding.md R88). -/
def wordWf (v : Int) : Bool :=
  decide (-(2 ^ 31) ≤ v ∧ v < 2 ^ 32)

/-- A byte written as a number. -/
def byteWf (v : Int) : Bool :=
  decide (0 ≤ v ∧ v < 256)

/-- A session identifier is exactly 16 bytes (10_state.md R20). -/
def sidWf (sid : List Int) : Bool :=
  decide (sid.length = 16) && sid.all byteWf

/-- A line of a host script: whole accesses to scalar registers, byte accesses to arrays inside them, numbers in range
(30_encoding.md R88, 20_memory.md R53). -/
def HostLine.wf (p : Params) : HostLine → Bool
  | .wr r v => !r.isArray && wordWf v
  | .wrAt r i v => r.isArray && decide (i < r.length p) && byteWf v
  | .rd r => !r.isArray
  | .rdAt r i => r.isArray && decide (i < r.length p)
  | .command _ => true
  | .wrb r bytes => r.isArray && decide (bytes.length ≤ r.length p) && bytes.all byteWf
  | .newWith sid a q => sidWf sid && wordWf a && wordWf q
  | .newDefault sid a => sidWf sid && wordWf a
  | .setaddrWith a => wordWf a
  | .setseqWith q => wordWf q
  | .loopback => decide (frameLen ≤ p.rxCap.val)
  | .fi c so ao => wordWf c && wordWf so && wordWf ao

end Machine

end Sys2Proof
end

