-- ==== Sys2Proof/Safety.lean ====
section
/-! DEFINITION. The terms claims are stated in: the invariant every step keeps, which events read an unwritten register, and
a state with what is unwritten blanked out. -/

namespace Sys2Proof.Machine

/-- The value a function of the state has in the next state, and `false` where the step stops. -/
def Outcome.holds (o : Host.Outcome State Fault Refusal) (q : State → Bool) : Bool :=
  match o with
  | .next t => q t
  | .fault _ => false
  | .refused _ => false

/-- An outcome with its next state changed by `g`; a stop stays as it is. -/
def Outcome.map (g : State → State) (o : Host.Outcome State Fault Refusal) : Host.Outcome State Fault Refusal :=
  match o with
  | .next t => .next (g t)
  | .fault f => .fault f
  | .refused r => .refused r

/-- The command word the host's next event writes to `CMD`, none when that event issues no command (10_state.md R31,
20_memory.md R57). -/
def State.issuedWord (s : State) : Option Byte :=
  match s.inbox with
  | .write reg i v :: _ => if reg = Reg.cmd.number ∧ i = 0 then some (v.setWidth 8) else none
  | .writeBack reg i :: _ => if reg = Reg.cmd.number ∧ i = 0 then some (s.readData.setWidth 8) else none
  | .read _ _ :: _ => none
  | .reset :: _ => none
  | [] => none

/-- The state with the host's next event taken away. -/
def State.afterEvent (s : State) : State :=
  { s with inbox := s.inbox.tail }

/-- `n` steps, stopping at the first fault or refusal (what `Host.Core.run` does on this machine). -/
def runSteps : Nat → State → Host.Outcome State Fault Refusal
  | 0, s => .next s
  | n + 1, s =>
    match step s with
    | .next t => runSteps n t
    | .fault f => .fault f
    | .refused r => .refused r

/-- The address of a packet is in [1, 63999] (40_packet_fields.md R107; the sequence is one byte, so its range holds by its
width, 10_state.md R22). -/
def Packet.InRange (p : Packet) : Prop :=
  addrMin ≤ p.addr.toNat ∧ p.addr.toNat ≤ addrMax

/-- The error registers hold no error, or one that a row of 60_exceptions.md R180 gives. -/
def ErrRegs.Legal (e : ErrRegs) : Prop :=
  e = ⟨0, 0, 0, 0, 0⟩ ∨
  (∃ a : Int, e = errAddr a ∧ ¬ (1 ≤ a ∧ a ≤ 63999)) ∨
  (∃ q : Int, e = errSeq q ∧ ¬ (0 ≤ q ∧ q ≤ 255)) ∨
  (∃ n : Half, e = errTooShort n ∧ n.toNat < 47) ∨
  (∃ m : Byte, e = errVectorMismatch m ∧ (m = 1 ∨ m = 2 ∨ m = 3)) ∨
  (∃ op : Byte, e = errNoPacket op ∧ (op = 2 ∨ op = 3 ∨ op = 4 ∨ op = 5)) ∨
  (∃ op : Byte, e = errIllegal op ∧ (op = 0 ∨ 7 ≤ op.toNat))

/-- `TX_LEN` and `TX_BUF` go together: no frame yet, or one whole frame (10_state.md R39, 41_encode.md R132). -/
def State.TxWhole (s : State) : Prop :=
  (s.txLen = 0 ∧ s.tx = []) ∨ (s.txLen = 49 ∧ ∀ i < 49, (s.tx.read i).isSome)

/-- What is true of the block from reset on, whatever the host does. -/
structure State.Inv (s : State) : Prop where
  /-- a held packet is a valid one (10_state.md R21, 40_packet_fields.md R107) -/
  pkt : s.pktValid = true → s.pkt.InRange
  /-- a decoded packet is a valid one (10_state.md R42) -/
  dec : s.decValid = true → s.dec.InRange
  /-- a valid decode result is a written one (10_state.md R48) -/
  decWritten : s.decValid = true → s.written.dec = true
  /-- the error registers hold a row of the error catalogue (60_exceptions.md R180) -/
  err : s.err.Legal
  /-- the reserved bits of `FI_CTRL` are 0 (10_state.md R35) -/
  fiCtrl : s.fi.ctrl &&& 0xF0 = 0
  /-- `TX_LEN` says what `TX_BUF` holds (10_state.md R39) -/
  txWhole : s.TxWhole
  /-- both byte spaces keep their canonical form, inside their sizes (20_memory.md R50, R57) -/
  txWf : s.tx.wf frameLen = true
  rxWf : s.rx.wf s.params.rxCap.val = true

/-! ## Unwritten registers (10_state.md R48) -/

/-- Every byte of `ARG_SID` has been written since reset. -/
def Written.wholeArgSid (w : Written) : Bool :=
  w.argSid.toList.all id

/-- Does this command read an argument register that nothing has written? NEW reads `ARG_SID` "only after both checks pass"
(40_packet_fields.md R103), and a command that holds no packet reads nothing but `PKT_VALID` (60_exceptions.md R186). -/
def commandReadsUnwritten (i : Instr) (s : State) : Bool :=
  match i with
  | .new =>
    !s.written.argAddr || !s.written.argSeq ||
      ((checkPacket s.argAddrInt s.argSeqInt).isNone && !s.written.wholeArgSid)
  | .setSyncAddress => s.pktValid && !s.written.argAddr
  | .setSequence => s.pktValid && !s.written.argSeq
  | .advance => false
  | .encode => false
  | .decode => false

/-- Is register `r`, at index `i`, unwritten (10_state.md R47, R48)? The bytes of `TX_BUF` and `RX_BUF` are not counted here:
reading an unwritten one is a fault of the machine itself. -/
def State.unwrittenReg (s : State) (r : Reg) (i : Nat) : Bool :=
  match r with
  | .argSid => (s.written.argSid[i]?.map (!·)).getD false
  | .argAddr => !s.written.argAddr
  | .argSeq => !s.written.argSeq
  | .pktSid | .pktAddr | .pktSeq => !s.pktValid
  | .decSid | .decAddr | .decSeq => !s.written.dec
  | .cmd | .status | .errCode | .errField | .errInfo | .errLo | .errHi | .fiCtrl | .fiSeqOffset | .fiAddrOffset
  | .txLen | .txBuf | .rxLen | .rxBuf => false

/-- Does a write to register number `reg` issue a command that reads an unwritten register? -/
def writeReadsUnwritten (reg : Byte) (i : Nat) (v : Word) (s : State) : Bool :=
  if reg = Reg.cmd.number ∧ i = 0 then
    match decode (v.setWidth 8) with
    | .command c => commandReadsUnwritten c s
    | .reserved _ => false
  else false

/-- Does this event read a register that nothing has written since reset? 10_state.md R48 calls such a read a model fault;
this model lets the machine go on with an unspecified value and calls the run unsafe (log entry 2). -/
def readsUnwritten (e : HostEvent) (s : State) : Bool :=
  match e with
  | .write reg i v => writeReadsUnwritten reg i v s
  | .writeBack reg i => writeReadsUnwritten reg i s.readData s
  | .read reg i =>
    match Reg.ofNumber reg with
    | some r => decide (i < r.length s.params) && s.unwrittenReg r i
    | none => false
  | .reset => false

/-- `ARG_SID` with its unwritten bytes replaced by 0. -/
def maskSid (marks : Vector Bool 16) (sid : Sid) : Sid :=
  Vector.zipWith (fun w b => if w then b else 0) marks sid

/-- A packet, or zeros where it is unwritten. -/
def maskPacket (written : Bool) (p : Packet) : Packet :=
  if written then p else ⟨Vector.replicate 16 0, 0, 0⟩

/-- The state with every unwritten register set to 0: two states have the same written part when this makes them equal. -/
def State.writtenPart (s : State) : State :=
  { s with
    arg := ⟨maskSid s.written.argSid s.arg.sid, if s.written.argAddr then s.arg.addr else 0,
            if s.written.argSeq then s.arg.seq else 0⟩
    pkt := maskPacket s.pktValid s.pkt
    dec := maskPacket s.written.dec s.dec }

/-- Two outcomes that agree: both go on, to states with the same written part, or both stop for the same reason. -/
def Outcome.agree (o₁ o₂ : Host.Outcome State Fault Refusal) : Prop :=
  match o₁, o₂ with
  | .next t₁, .next t₂ => t₁.writtenPart = t₂.writtenPart
  | .fault f₁, .fault f₂ => f₁ = f₂
  | .refused r₁, .refused r₂ => r₁ = r₂
  | _, _ => False

/-- A safe step: the next event, if there is one, reads no unwritten register. -/
def State.SafeStep (s : State) : Prop :=
  ∀ e rest, s.inbox = e :: rest → readsUnwritten e s = false

end Sys2Proof.Machine
end

