-- ==== Sys2Proof/Certificates/Slice0/Obligations.lean ====
section
/-! DEFINITION. The statements for the provers. A next state is written as the old state with the registers the rule names
changed, so each such equation is also the frame: everything it does not name is as before. -/

open Sys2Proof Sys2Proof.Machine

/-! ## The command word -/

/-- The opcode map of 30_encoding.md R83, word by word, as the byte written to `CMD` and as the table's word. -/
def Obligations.CommandWordsDecode : Prop :=
  decode 0x01 = .command .new ∧ decode 0x02 = .command .setSyncAddress ∧ decode 0x03 = .command .setSequence ∧
  decode 0x04 = .command .advance ∧ decode 0x05 = .command .encode ∧ decode 0x06 = .command .decode ∧
  decode 0x07 = .reserved 0x07 ∧
  decodeTableWord 8 0x01 = some .new ∧ decodeTableWord 8 0x02 = some .setSyncAddress ∧
  decodeTableWord 8 0x03 = some .setSequence ∧ decodeTableWord 8 0x04 = some .advance ∧
  decodeTableWord 8 0x05 = some .encode ∧ decodeTableWord 8 0x06 = some .decode ∧ decodeTableWord 8 0x07 = none

/-- 30_encoding.md R84 and 60_exceptions.md R187: a reserved opcode raises `ILLEGAL_COMMAND` and changes nothing else; every
other opcode is one of the six commands, so there is no hint, no no-op and no custom space. -/
def Obligations.ReservedOpcodesRaiseIllegalCommand : Prop :=
  (∀ op : Byte, op = 0 ∨ 7 ≤ op.toNat →
    decode op = .reserved op ∧
    ∀ (s : State) (v : Word) (rest : List HostEvent), v.setWidth 8 = op → s.inbox = .write 0x00 0 v :: rest →
      step s = .next { s with inbox := rest, err := ⟨5, 0, op.setWidth 32, 0, 0⟩ }) ∧
  (∀ op : Byte, ¬ (op = 0 ∨ 7 ≤ op.toNat) → ∃ i, decode op = .command i)

/-- Decoder and encoder agree, both ways, for every command (30_encoding.md R83). -/
def Obligations.DecodeAndEncodeAgree : Prop :=
  (∀ i : Instr, i.wf = true ∧ decode (encode i) = .command i) ∧
  (∀ (op : Byte) (i : Instr), decode op = .command i → op = encode i)

/-- A step runs the command whose word the host's next event writes to `CMD`, with that event taken away; with no event the
block waits; and `withFetchWord` makes the very next step run its command (10_state.md R31). The model's choices here: that
the host's accesses stand in a list (log entry 4), that a table word of another length than one byte is cut to its low 8 bits
(log entry 10), and that a step with no host access changes nothing (log entry 11). -/
def Obligations.StepRunsTheDecodedCommand : Prop :=
  (∀ (s : State) (op : Byte) (i : Instr), s.issuedWord = some op → decode op = .command i → step s = exec i s.afterEvent) ∧
  (∀ s : State, s.inbox = [] → step s = .next s) ∧
  (∀ (s : State) (nbits w : Nat) (i : Instr), decodeTableWord nbits w = some i →
    step (s.withFetchWord nbits w) = exec i s)

/-! ## NEW, SET_SYNC_ADDRESS, SET_SEQUENCE, ADVANCE -/

/-- 40_packet_fields.md R103 with R101 and R102: NEW's three cases, the address checked first. The model's choice here: an argument
that nothing has written has an unspecified value and NEW goes on with it, where 10_state.md R48 and 70_reset_and_hazards.md
R203 ask for a model fault (log entry 2). -/
def Obligations.NewConstructsThePacket : Prop :=
  decode 0x01 = .command .new ∧ ∀ s : State,
    (¬ (1 ≤ s.arg.addr.toInt ∧ s.arg.addr.toInt ≤ 63999) →
      exec .new s = .next { s with err := ⟨1, 1, s.arg.addr, 1, 63999⟩ }) ∧
    (1 ≤ s.arg.addr.toInt ∧ s.arg.addr.toInt ≤ 63999 → ¬ (0 ≤ s.arg.seq.toInt ∧ s.arg.seq.toInt ≤ 255) →
      exec .new s = .next { s with err := ⟨1, 2, s.arg.seq, 0, 255⟩ }) ∧
    (1 ≤ s.arg.addr.toInt ∧ s.arg.addr.toInt ≤ 63999 → 0 ≤ s.arg.seq.toInt ∧ s.arg.seq.toInt ≤ 255 →
      exec .new s = .next { s with
        pkt := ⟨s.arg.sid, s.arg.addr.setWidth 16, s.arg.seq.setWidth 8⟩, pktValid := true, err := ⟨0, 0, 0, 0, 0⟩ })

/-- 40_packet_fields.md R104: SET_SYNC_ADDRESS's three cases. The model's choice here: an `ARG_ADDR`
that nothing has written has an unspecified value and the command goes on with it, where 10_state.md R48 and 70_reset_and_hazards.md
R203 ask for a model fault (log entry 2). -/
def Obligations.SetSyncAddressMutatesTheAddress : Prop :=
  decode 0x02 = .command .setSyncAddress ∧ ∀ s : State,
    (s.pktValid = false → exec .setSyncAddress s = .next { s with err := ⟨4, 0, 2, 0, 0⟩ }) ∧
    (s.pktValid = true → ¬ (1 ≤ s.arg.addr.toInt ∧ s.arg.addr.toInt ≤ 63999) →
      exec .setSyncAddress s = .next { s with err := ⟨1, 1, s.arg.addr, 1, 63999⟩ }) ∧
    (s.pktValid = true → 1 ≤ s.arg.addr.toInt ∧ s.arg.addr.toInt ≤ 63999 →
      exec .setSyncAddress s = .next { s with
        pkt := { s.pkt with addr := s.arg.addr.setWidth 16 }, err := ⟨0, 0, 0, 0, 0⟩ })

/-- 40_packet_fields.md R105: SET_SEQUENCE's three cases. The model's choice here: an `ARG_SEQ`
that nothing has written has an unspecified value and the command goes on with it, where 10_state.md R48 and 70_reset_and_hazards.md
R203 ask for a model fault (log entry 2). -/
def Obligations.SetSequenceMutatesTheSequence : Prop :=
  decode 0x03 = .command .setSequence ∧ ∀ s : State,
    (s.pktValid = false → exec .setSequence s = .next { s with err := ⟨4, 0, 3, 0, 0⟩ }) ∧
    (s.pktValid = true → ¬ (0 ≤ s.arg.seq.toInt ∧ s.arg.seq.toInt ≤ 255) →
      exec .setSequence s = .next { s with err := ⟨1, 2, s.arg.seq, 0, 255⟩ }) ∧
    (s.pktValid = true → 0 ≤ s.arg.seq.toInt ∧ s.arg.seq.toInt ≤ 255 →
      exec .setSequence s = .next { s with
        pkt := { s.pkt with seq := s.arg.seq.setWidth 8 }, err := ⟨0, 0, 0, 0, 0⟩ })

/-- 40_packet_fields.md R106: ADVANCE's two cases, the sum taken mod 256. -/
def Obligations.AdvanceIncrementsTheSequence : Prop :=
  decode 0x04 = .command .advance ∧ ∀ s : State,
    (s.pktValid = false → exec .advance s = .next { s with err := ⟨4, 0, 4, 0, 0⟩ }) ∧
    (s.pktValid = true → exec .advance s = .next { s with
      pkt := { s.pkt with seq := BitVec.ofNat 8 ((s.pkt.seq.toNat + 1) % 256) }, err := ⟨0, 0, 0, 0, 0⟩ })

/-- `n + 1` ADVANCEs, one step each, add `n + 1` to the sequence mod 256 and change nothing else but the error registers;
"256 ADVANCEs return PKT_SEQ to its start value" (40_packet_fields.md R106). -/
def Obligations.AdvancesCountModulo256 : Prop :=
  ∀ (s : State) (rest : List HostEvent), s.pktValid = true →
    (∀ n : Nat, runSteps (n + 1) { s with inbox := List.replicate (n + 1) (.write 0x00 0 0x04) ++ rest } =
      .next { s with
        inbox := rest, err := ⟨0, 0, 0, 0, 0⟩
        pkt := { s.pkt with seq := BitVec.ofNat 8 ((s.pkt.seq.toNat + (n + 1)) % 256) } }) ∧
    runSteps 256 { s with inbox := List.replicate 256 (.write 0x00 0 0x04) ++ rest } =
      .next { s with inbox := rest, err := ⟨0, 0, 0, 0, 0⟩ }

/-- 60_exceptions.md R186: `NO_PACKET` with the opcode, before any other operand is read and with no other effect, from the
four commands that need a packet; never from NEW or DECODE. -/
def Obligations.NoPacketIsRaisedByTheFourCommands : Prop :=
  (∀ s : State, s.pktValid = false →
    exec .setSyncAddress s = .next { s with err := ⟨4, 0, 2, 0, 0⟩ } ∧
    exec .setSequence s = .next { s with err := ⟨4, 0, 3, 0, 0⟩ } ∧
    exec .advance s = .next { s with err := ⟨4, 0, 4, 0, 0⟩ } ∧
    exec .encode s = .next { s with err := ⟨4, 0, 5, 0, 0⟩ }) ∧
  (∀ s t : State, exec .new s = .next t ∨ exec .decode s = .next t → t.err.code ≠ 4)

/-- The frame of the four field commands: what they leave as it was (40_packet_fields.md R103 to R106). `ARG_*`, `FI_*`, the
buffers, their lengths and the decoded packet are never written; only NEW writes `PKT_SID` and `PKT_VALID`; each SET and
ADVANCE writes its own field; an error leaves the packet register as it was. -/
def Obligations.FieldCommandsFrame : Prop :=
  ∀ (i : Instr) (s t : State), i = .new ∨ i = .setSyncAddress ∨ i = .setSequence ∨ i = .advance → exec i s = .next t →
    t.params = s.params ∧ t.decValid = s.decValid ∧ t.arg = s.arg ∧ t.fi = s.fi ∧ t.txLen = s.txLen ∧
    t.rxLen = s.rxLen ∧ t.dec = s.dec ∧ t.written = s.written ∧ t.inbox = s.inbox ∧ t.readData = s.readData ∧
    t.resets = s.resets ∧ (∀ a, t.tx.read a = s.tx.read a) ∧ (∀ a, t.rx.read a = s.rx.read a) ∧
    (i ≠ .new → t.pktValid = s.pktValid ∧ t.pkt.sid = s.pkt.sid) ∧
    (i = .setSyncAddress → t.pkt.seq = s.pkt.seq) ∧
    (i = .setSequence ∨ i = .advance → t.pkt.addr = s.pkt.addr) ∧
    (t.err.code ≠ 0 → t.pkt = s.pkt ∧ t.pktValid = s.pktValid)

/-! ## ENCODE -/

/-- 41_encode.md R121 with the field rules it rests on: with the fault configuration off, ENCODE writes the conformant
frame, every byte, for every value of the parameters; nothing outside the 49 bytes is written. -/
def Obligations.EncodeWritesTheConformantFrame : Prop :=
  ∀ s : State, s.pktValid = true → s.fi.ctrl &&& 0x0F = 0 → s.fi.seqOffset = 0 → s.fi.addrOffset = 0 →
    ∃ t, exec .encode s = .next t ∧ t = { s with tx := t.tx, txLen := 49, err := ⟨0, 0, 0, 0, 0⟩ } ∧
      t.tx.read 0 = some (s.params.preambleSize.extractLsb' 8 8) ∧
      t.tx.read 1 = some (s.params.preambleSize.extractLsb' 0 8) ∧
      t.tx.read 2 = some 0 ∧ t.tx.read 3 = some 0 ∧
      (∀ k (h : k < 12), t.tx.read (4 + k) = some s.params.acnPid[k]) ∧
      t.tx.read 16 = some 0x70 ∧ t.tx.read 17 = some 0x21 ∧
      t.tx.read 18 = some (s.params.vectorRootExtended.extractLsb' 24 8) ∧
      t.tx.read 19 = some (s.params.vectorRootExtended.extractLsb' 16 8) ∧
      t.tx.read 20 = some (s.params.vectorRootExtended.extractLsb' 8 8) ∧
      t.tx.read 21 = some (s.params.vectorRootExtended.extractLsb' 0 8) ∧
      (∀ k (h : k < 16), t.tx.read (22 + k) = some s.pkt.sid[k]) ∧
      t.tx.read 38 = some 0x70 ∧ t.tx.read 39 = some 0x0B ∧
      t.tx.read 40 = some (s.params.vectorSync.extractLsb' 24 8) ∧
      t.tx.read 41 = some (s.params.vectorSync.extractLsb' 16 8) ∧
      t.tx.read 42 = some (s.params.vectorSync.extractLsb' 8 8) ∧
      t.tx.read 43 = some (s.params.vectorSync.extractLsb' 0 8) ∧
      t.tx.read 44 = some s.pkt.seq ∧
      t.tx.read 45 = some (s.pkt.addr.extractLsb' 8 8) ∧ t.tx.read 46 = some (s.pkt.addr.extractLsb' 0 8) ∧
      t.tx.read 47 = some 0 ∧ t.tx.read 48 = some 0 ∧
      (∀ a, 49 ≤ a → t.tx.read a = s.tx.read a)

/-- 41_encode.md R122 to R127 and R131: what ENCODE writes for every fault configuration. The six effects act on the
conformant frame (`frame`, which `EncodeWritesTheConformantFrame` spells out byte for byte), every other byte is the
conformant one, and the packet register keeps its own values. -/
def Obligations.EncodeAppliesTheFaultConfiguration : Prop :=
  ∀ s : State, s.pktValid = true →
    ∃ t, exec .encode s = .next t ∧ t = { s with tx := t.tx, txLen := 49, err := ⟨0, 0, 0, 0, 0⟩ } ∧
      ∀ x, x < 49 → t.tx.read x =
        if x = 44 then some (BitVec.ofNat 8 ((s.pkt.seq.toNat + s.fi.seqOffset.toNat) % 256))
        else if x = 45 then some (BitVec.ofNat 8 ((s.pkt.addr.toNat + s.fi.addrOffset.toNat) % 65536 / 256))
        else if x = 46 then some (BitVec.ofNat 8 ((s.pkt.addr.toNat + s.fi.addrOffset.toNat) % 65536 % 256))
        else if s.fi.ctrl.getLsbD 0 = true ∧ x = s.params.fiPidOffset.val then some 0
        else if (s.fi.ctrl.getLsbD 1 = true ∧ x = s.params.fiPreambleOffset.val) ∨
            (s.fi.ctrl.getLsbD 2 = true ∧ x = s.params.fiEnvVecOffset.val) ∨
            (s.fi.ctrl.getLsbD 3 = true ∧ x = s.params.fiSyncVecOffset.val)
          then (frame s.params s.pkt)[x]?.map (fun b => ~~~b)
        else (frame s.params s.pkt)[x]?

/-- 41_encode.md R129 and R132, and what ENCODE leaves as it was: it writes `TX_BUF`, `TX_LEN` and the error registers and
nothing else, `TX_BUF` at offsets 0 to 48 only, and with no packet not even these. -/
def Obligations.EncodeFrame : Prop :=
  ∀ s t : State, exec .encode s = .next t →
    t.params = s.params ∧ t.pktValid = s.pktValid ∧ t.decValid = s.decValid ∧ t.arg = s.arg ∧ t.pkt = s.pkt ∧
    t.fi = s.fi ∧ t.rxLen = s.rxLen ∧ t.dec = s.dec ∧ t.written = s.written ∧ t.inbox = s.inbox ∧
    t.readData = s.readData ∧ t.resets = s.resets ∧ (∀ a, t.rx.read a = s.rx.read a) ∧
    (∀ a, ¬ a < 49 → t.tx.read a = s.tx.read a) ∧
    (s.pktValid = true → t.txLen = 49 ∧ ∀ a, a < 49 → (t.tx.read a).isSome) ∧
    (s.pktValid = false → t.txLen = s.txLen ∧ ∀ a, t.tx.read a = s.tx.read a)

/-- 41_encode.md R128: the six effects of the fault configuration, applied in any order, give the frame ENCODE writes. -/
def Obligations.FaultEffectsCommute : Prop :=
  ∀ (p : Params) (pk : Packet) (f : FaultConfig) (effects : List (List Byte → List Byte)),
    effects.Perm
      [ fun g => g.set 44 (wireSeq pk f),
        fun g => putBytes g 45 (beBytes 2 (wireAddr pk f).toNat),
        zeroIf (f.switch 0) p.fiPidOffset.val,
        complementIf (f.switch 1) p.fiPreambleOffset.val,
        complementIf (f.switch 2) p.fiEnvVecOffset.val,
        complementIf (f.switch 3) p.fiSyncVecOffset.val ] →
    effects.foldl (fun g effect => effect g) (frame p pk) = wireFrame p pk f

/-! ## DECODE -/

/-- 42_decode.md R152: the length floor, checked before any byte is read. -/
def Obligations.DecodeRejectsShortBuffers : Prop :=
  decode 0x06 = .command .decode ∧ ∀ s : State, s.rxLen.toNat < 47 →
    exec .decode s = .next { s with decValid := false, err := ⟨2, 0, s.rxLen.setWidth 32, 0, 0⟩ }

/-- 42_decode.md R153, R154: on a buffer that is long enough, either vector differing in any of its 32 bits raises the one
vector error, with the mask of those that differ. -/
def Obligations.DecodeRejectsWrongVectors : Prop :=
  ∀ (s : State) (env syn : Vector Byte 4), 47 ≤ s.rxLen.toNat →
    (∀ k (h : k < 4), s.rx.read (18 + k) = some env[k]) → (∀ k (h : k < 4), s.rx.read (40 + k) = some syn[k]) →
    ¬ (env.toList = beBytes 4 s.params.vectorRootExtended.toNat ∧ syn.toList = beBytes 4 s.params.vectorSync.toNat) →
    exec .decode s = .next { s with
      decValid := false
      err := ⟨3, 0, (if env.toList = beBytes 4 s.params.vectorRootExtended.toNat then 0 else 1) +
                    (if syn.toList = beBytes 4 s.params.vectorSync.toNat then 0 else 2), 0, 0⟩ }

/-- 42_decode.md R155 to R158: on a buffer that passes the structural checks DECODE takes the fields from their offsets,
computes the address with the multiplier, checks it, and either stores the packet or raises `VALIDATION`. -/
def Obligations.DecodeExtractsThePacket : Prop :=
  ∀ (s : State) (sid : Sid) (seq high low : Byte), 47 ≤ s.rxLen.toNat →
    (∀ k, k < 4 → s.rx.read (18 + k) = (beBytes 4 s.params.vectorRootExtended.toNat)[k]?) →
    (∀ k (h : k < 16), s.rx.read (22 + k) = some sid[k]) →
    (∀ k, k < 4 → s.rx.read (40 + k) = (beBytes 4 s.params.vectorSync.toNat)[k]?) →
    s.rx.read 44 = some seq → s.rx.read 45 = some high → s.rx.read 46 = some low →
    (1 ≤ s.params.addrDecodeMult.toNat * high.toNat + low.toNat ∧
        s.params.addrDecodeMult.toNat * high.toNat + low.toNat ≤ 63999 →
      exec .decode s = .next { s with
        dec := ⟨sid, BitVec.ofNat 16 (s.params.addrDecodeMult.toNat * high.toNat + low.toNat), seq⟩, decValid := true
        written := { s.written with dec := true }, err := ⟨0, 0, 0, 0, 0⟩ }) ∧
    (¬ (1 ≤ s.params.addrDecodeMult.toNat * high.toNat + low.toNat ∧
        s.params.addrDecodeMult.toNat * high.toNat + low.toNat ≤ 63999) →
      exec .decode s = .next { s with
        decValid := false
        err := ⟨1, 1, BitVec.ofNat 32 (s.params.addrDecodeMult.toNat * high.toNat + low.toNat), 1, 63999⟩ })

/-- 42_decode.md R158, R159: `DEC_VALID` says whether this DECODE succeeded, and a failed one leaves `DEC_*` unchanged. -/
def Obligations.DecodeIsAllOrNothing : Prop :=
  ∀ s t : State, exec .decode s = .next t →
    (t.err.code = 0 → t.decValid = true ∧ t.dec.InRange) ∧
    (t.err.code ≠ 0 → t.decValid = false ∧ t.dec = s.dec)

/-- 42_decode.md R162 and 20_memory.md R61: what DECODE leaves as it was, both buffers among it. -/
def Obligations.DecodeFrame : Prop :=
  ∀ s t : State, exec .decode s = .next t →
    t.params = s.params ∧ t.pktValid = s.pktValid ∧ t.arg = s.arg ∧ t.pkt = s.pkt ∧ t.fi = s.fi ∧ t.txLen = s.txLen ∧
    t.rxLen = s.rxLen ∧ t.inbox = s.inbox ∧ t.readData = s.readData ∧ t.resets = s.resets ∧
    t.written.argSid = s.written.argSid ∧ t.written.argAddr = s.written.argAddr ∧ t.written.argSeq = s.written.argSeq ∧
    (∀ a, t.tx.read a = s.tx.read a) ∧ (∀ a, t.rx.read a = s.rx.read a)

/-- 42_decode.md R160, R161, 30_encoding.md R82: two receive buffers that agree at offsets 18 to 37 and 40 to 46 decode alike,
whatever their other bytes (the second flags+length field at 38 and 39 among them) and whatever their lengths of 47 and
more. -/
def Obligations.DecodeReadsItsFieldsOnly : Prop :=
  ∀ (s : State) (m : Memory) (n : Half), 47 ≤ s.rxLen.toNat → 47 ≤ n.toNat →
    (∀ x, (18 ≤ x ∧ x ≤ 37) ∨ (40 ≤ x ∧ x ≤ 46) → m.read x = s.rx.read x) →
    exec .decode { s with rx := m, rxLen := n } = Outcome.map (fun t => { t with rx := m, rxLen := n }) (exec .decode s)

/-- 42_decode.md R162: DECODE's outcome does not depend on the packet register, the transmit buffer, the arguments or the
fault configuration. -/
def Obligations.DecodeReadsNoOtherRegister : Prop :=
  ∀ (s : State) (v : Bool) (pk : Packet) (f : FaultConfig) (a : ArgRegs) (n : Byte) (m : Memory),
    exec .decode { s with pktValid := v, pkt := pk, fi := f, arg := a, txLen := n, tx := m } =
      Outcome.map (fun t => { t with pktValid := v, pkt := pk, fi := f, arg := a, txLen := n, tx := m }) (exec .decode s)

/-- 42_decode.md R163: the arithmetic of the multiplier 255. -/
def Obligations.DecodedAddressArithmetic255 : Prop :=
  (∀ high low : Byte, (decodedAddr .by255 high low : Int) = 256 * high.toNat + low.toNat - high.toNat) ∧
  (∀ addr : Half, 1 ≤ addr.toNat → addr.toNat ≤ 63999 →
    decodedAddr .by255 (addr.extractLsb' 8 8) (addr.extractLsb' 0 8) = addr.toNat - addr.toNat / 256 ∧
    (addr.toNat ≤ 255 → decodedAddr .by255 (addr.extractLsb' 8 8) (addr.extractLsb' 0 8) = addr.toNat) ∧
    (256 ≤ addr.toNat → 255 ≤ decodedAddr .by255 (addr.extractLsb' 8 8) (addr.extractLsb' 0 8) ∧
      decodedAddr .by255 (addr.extractLsb' 8 8) (addr.extractLsb' 0 8) ≤ 63750 ∧
      decodedAddr .by255 (addr.extractLsb' 8 8) (addr.extractLsb' 0 8) ≠ addr.toNat)) ∧
  (∀ h : Nat, h ≤ 254 →
    decodedAddr .by255 (BitVec.ofNat 8 h) 255 = 255 * (h + 1) ∧
    decodedAddr .by255 (BitVec.ofNat 8 (h + 1)) 0 = 255 * (h + 1)) ∧
  (∀ high low : Byte,
    (decodedAddr .by255 high low = 0 ↔ high = 0 ∧ low = 0) ∧
    (63999 < decodedAddr .by255 high low ↔ 251 ≤ high.toNat ∨ (high.toNat = 250 ∧ 250 ≤ low.toNat)))

/-! ## ENCODE and DECODE together -/

/-- 41_encode.md R126, R127: with a vector switch on, ENCODE writes the complement of the conformant byte at the switch's
offset, and DECODE of the frame fails its vector check, whatever the parameters and the other switches. -/
def Obligations.VectorCorruptionFailsDecode : Prop :=
  ∀ s t d : State, s.pktValid = true → exec .encode s = .next t → d.params = s.params → 47 ≤ d.rxLen.toNat →
    (∀ x, 18 ≤ x → x ≤ 46 → d.rx.read x = t.tx.read x) →
    (s.fi.ctrl.getLsbD 2 = true →
      t.tx.read s.params.fiEnvVecOffset.val = (frame s.params s.pkt)[s.params.fiEnvVecOffset.val]?.map (fun b => ~~~b) ∧
      ∃ m : Word, exec .decode d = .next { d with decValid := false, err := ⟨3, 0, m, 0, 0⟩ } ∧ m.getLsbD 0 = true) ∧
    (s.fi.ctrl.getLsbD 3 = true →
      t.tx.read s.params.fiSyncVecOffset.val = (frame s.params s.pkt)[s.params.fiSyncVecOffset.val]?.map (fun b => ~~~b) ∧
      ∃ m : Word, exec .decode d = .next { d with decValid := false, err := ⟨3, 0, m, 0, 0⟩ } ∧ m.getLsbD 1 = true)

/-- 41_encode.md R133: what each fault does to a DECODE of the encoded frame, with the multiplier 256 and no other fault on.
`d` is any state of the same block whose receive buffer holds the bytes that ENCODE wrote. -/
def Obligations.FaultsAsDecodeSeesThem : Prop :=
  ∀ s t d : State, s.pktValid = true → s.pkt.InRange → s.params.addrDecodeMult = .by256 → exec .encode s = .next t →
    d.params = s.params → 47 ≤ d.rxLen.toNat → (∀ x, 18 ≤ x → x ≤ 46 → d.rx.read x = t.tx.read x) →
    ((s.fi.ctrl &&& 0x0F = 1 ∨ s.fi.ctrl &&& 0x0F = 2) → s.fi.seqOffset = 0 → s.fi.addrOffset = 0 →
      exec .decode d = .next { d with
        dec := s.pkt, decValid := true, written := { d.written with dec := true }, err := ⟨0, 0, 0, 0, 0⟩ }) ∧
    (s.fi.ctrl &&& 0x0F = 4 → s.fi.seqOffset = 0 → s.fi.addrOffset = 0 →
      exec .decode d = .next { d with decValid := false, err := ⟨3, 0, 1, 0, 0⟩ }) ∧
    (s.fi.ctrl &&& 0x0F = 8 → s.fi.seqOffset = 0 → s.fi.addrOffset = 0 →
      exec .decode d = .next { d with decValid := false, err := ⟨3, 0, 2, 0, 0⟩ }) ∧
    (s.fi.ctrl &&& 0x0F = 0 → s.fi.addrOffset = 0 →
      exec .decode d = .next { d with
        dec := { s.pkt with seq := BitVec.ofNat 8 ((s.pkt.seq.toNat + s.fi.seqOffset.toNat) % 256) }, decValid := true
        written := { d.written with dec := true }, err := ⟨0, 0, 0, 0, 0⟩ }) ∧
    (s.fi.ctrl &&& 0x0F = 0 → s.fi.seqOffset = 0 →
      ((1 ≤ (s.pkt.addr + s.fi.addrOffset).toNat ∧ (s.pkt.addr + s.fi.addrOffset).toNat ≤ 63999 →
        exec .decode d = .next { d with
          dec := { s.pkt with addr := s.pkt.addr + s.fi.addrOffset }, decValid := true
          written := { d.written with dec := true }, err := ⟨0, 0, 0, 0, 0⟩ }) ∧
      (¬ (1 ≤ (s.pkt.addr + s.fi.addrOffset).toNat ∧ (s.pkt.addr + s.fi.addrOffset).toNat ≤ 63999) →
        exec .decode d = .next { d with
          decValid := false, err := ⟨1, 1, (s.pkt.addr + s.fi.addrOffset).setWidth 32, 1, 63999⟩ })))

/-- 30_encoding.md R88: after the 99 accesses of `loopback` the receive buffer holds the frame of the transmit buffer (as far
as it has room) and `RX_LEN` is 49; no other register of the block has changed. -/
def Obligations.LoopbackCopiesTheFrame : Prop :=
  ∀ (s : State) (rest : List HostEvent), (∀ x, x < 49 → (s.tx.read x).isSome) →
    ∃ t, runSteps 99 { s with inbox := HostLine.loopback.expand ++ rest } = .next t ∧
      t = { s with inbox := rest, rx := t.rx, rxLen := 49, readData := t.readData } ∧
      (∀ x, x < 49 → x < s.params.rxCap.val → t.rx.read x = s.tx.read x) ∧
      (∀ x, ¬ (x < 49 ∧ x < s.params.rxCap.val) → t.rx.read x = s.rx.read x)

/-- 42_decode.md R164: ENCODE, the host's copy of the frame, a length of 47, 48 or 49, and DECODE give back the packet: in
full with the multiplier 256, and with 255 the address `A - (A >> 8)`, which is `A` for 1 to 255. The model's choices here: the
host's accesses stand in a list (log entry 4), and `loopback` writes back what it read (log entry 12). -/
def Obligations.EncodeLoopbackDecodeRoundTrip : Prop :=
  ∀ (s : State) (rest : List HostEvent) (n : Int), s.pktValid = true → s.pkt.InRange → s.fi.ctrl &&& 0x0F = 0 →
    s.fi.seqOffset = 0 → s.fi.addrOffset = 0 → n = 47 ∨ n = 48 ∨ n = 49 →
    ∃ t, runSteps 102
        { s with
          inbox := expandScript [.command .encode, .loopback, .wr .rxLen n, .command .decode] ++ rest } = .next t ∧
      t.inbox = rest ∧ t.err = ⟨0, 0, 0, 0, 0⟩ ∧ t.decValid = true ∧ t.dec.sid = s.pkt.sid ∧ t.dec.seq = s.pkt.seq ∧
      (s.params.addrDecodeMult = .by256 → t.dec = s.pkt) ∧
      (s.params.addrDecodeMult = .by255 → t.dec.addr.toNat = s.pkt.addr.toNat - s.pkt.addr.toNat / 256 ∧
        (t.dec = s.pkt ↔ s.pkt.addr.toNat ≤ 255))

/-! ## The whole machine -/

/-- Every step keeps the invariant (10_state.md R21, R35, R39, R42, 40_packet_fields.md R107, 60_exceptions.md R180,
20_memory.md R57), from any state that has it. -/
def Obligations.StepKeepsTheInvariant : Prop :=
  ∀ s t : State, s.Inv → step s = .next t → t.Inv

/-- The state after any reset has the invariant, whatever the parameters and the unspecified values (10_state.md R47). -/
def Obligations.ResetHasTheInvariant : Prop :=
  State.reset.Inv ∧ ∀ (p : Params) (k : Nat), (State.powerOn p k).Inv

/-- No safe step lets an unspecified reset value out: from two states with the same written part, a step that reads no
unwritten register stops for the same reason or goes on to states with the same written part (10_state.md R48; that the
machine goes on at all after an unsafe step is the model's choice, log entry 2). -/
def Obligations.UnwrittenValuesNeverMatter : Prop :=
  ∀ s₁ s₂ : State, s₁.writtenPart = s₂.writtenPart → s₁.SafeStep → Outcome.agree (step s₁) (step s₂)

/-- 10_state.md R49: while `PKT_VALID` is 0 no command reads the packet register. Changing it changes no command's outcome,
and what NEW puts there does not depend on it. -/
def Obligations.InvalidPacketIsNeverRead : Prop :=
  ∀ (s : State) (pk : Packet), s.pktValid = false →
    (∀ i : Instr, i ≠ .new → exec i { s with pkt := pk } = Outcome.map (fun t => { t with pkt := pk }) (exec i s)) ∧
    exec .new { s with pkt := pk } =
      Outcome.map (fun t => { t with pkt := if t.pktValid then t.pkt else pk }) (exec .new s)

/-- 20_memory.md R60: NEW, SET_SYNC_ADDRESS, SET_SEQUENCE, ENCODE and DECODE repeated give the state of one; ADVANCE changes
`PKT_SEQ` each time it succeeds. -/
def Obligations.CommandsRepeatedGiveTheSameState : Prop :=
  (∀ (i : Instr) (s t : State), s.Inv → i ≠ .advance → exec i s = .next t → exec i t = .next t) ∧
  (∀ s t : State, s.pktValid = true → exec .advance s = .next t → t.pkt.seq ≠ s.pkt.seq)

/-- 10_state.md R47: the reset input puts the registers at their reset values and makes both buffers unwritten, whatever was
there; the parameters stay (R46). The model's choices here: the accesses the host has yet to make and the value it last read
stay as they were (log entry 8; that they are fields of the state is log entry 4). -/
def Obligations.ResetGivesTheResetValues : Prop :=
  ∀ (s : State) (rest : List HostEvent), s.inbox = .reset :: rest →
    ∃ t, step s = .next t ∧ t.pktValid = false ∧ t.decValid = false ∧ t.err = ⟨0, 0, 0, 0, 0⟩ ∧ t.fi = ⟨0, 0, 0⟩ ∧
      t.txLen = 0 ∧ t.rxLen = 0 ∧ (∀ x, t.tx.read x = none) ∧ (∀ x, t.rx.read x = none) ∧
      t.written = ⟨Vector.replicate 16 false, false, false, false⟩ ∧
      t.params = s.params ∧ t.inbox = rest ∧ t.readData = s.readData

/-- 70_reset_and_hazards.md R201: straight after reset ENCODE, ADVANCE and the two SET commands raise `NO_PACKET` and DECODE
raises `DECODE_TOO_SHORT` with `ERR_INFO` 0. -/
def Obligations.FirstCommandsAfterReset : Prop :=
  ∀ (p : Params) (k : Nat),
    exec .encode (State.powerOn p k) = .next { State.powerOn p k with err := ⟨4, 0, 5, 0, 0⟩ } ∧
    exec .advance (State.powerOn p k) = .next { State.powerOn p k with err := ⟨4, 0, 4, 0, 0⟩ } ∧
    exec .setSyncAddress (State.powerOn p k) = .next { State.powerOn p k with err := ⟨4, 0, 2, 0, 0⟩ } ∧
    exec .setSequence (State.powerOn p k) = .next { State.powerOn p k with err := ⟨4, 0, 3, 0, 0⟩ } ∧
    exec .decode (State.powerOn p k) = .next { State.powerOn p k with err := ⟨2, 0, 0, 0, 0⟩ } ∧
    (State.powerOn p k).pktValid = false ∧ (State.powerOn p k).decValid = false ∧ (State.powerOn p k).txLen = 0 ∧
    (State.powerOn p k).rxLen = 0 ∧ (State.powerOn p k).err = ⟨0, 0, 0, 0, 0⟩ ∧ (State.powerOn p k).fi = ⟨0, 0, 0⟩

/-- 10_state.md R46: no command and no host access changes a parameter. -/
def Obligations.ParametersNeverChange : Prop :=
  ∀ s t : State, step s = .next t → t.params = s.params

/-- 10_state.md R23: only NEW sets `PKT_VALID`, and only reset clears it. -/
def Obligations.OnlyNewSetsPktValidOnlyResetClearsIt : Prop :=
  ∀ s t : State, step s = .next t →
    (s.pktValid = false → t.pktValid = true → s.issuedWord = some (encode .new)) ∧
    (s.pktValid = true → t.pktValid = false → ∃ rest, s.inbox = .reset :: rest)

/-- 10_state.md R43, column "written by commands": each result register changes only in the commands named there, or at
reset. -/
def Obligations.ResultRegistersHaveTheirWriters : Prop :=
  ∀ s t : State, step s = .next t → (∀ rest, s.inbox ≠ .reset :: rest) →
    (t.pkt.sid ≠ s.pkt.sid → s.issuedWord = some (encode .new)) ∧
    (t.pkt.addr ≠ s.pkt.addr → s.issuedWord = some (encode .new) ∨ s.issuedWord = some (encode .setSyncAddress)) ∧
    (t.pkt.seq ≠ s.pkt.seq → s.issuedWord = some (encode .new) ∨ s.issuedWord = some (encode .setSequence) ∨
      s.issuedWord = some (encode .advance)) ∧
    (t.tx ≠ s.tx ∨ t.txLen ≠ s.txLen → s.issuedWord = some (encode .encode)) ∧
    (t.dec ≠ s.dec ∨ t.decValid ≠ s.decValid → s.issuedWord = some (encode .decode))

/-- 70_reset_and_hazards.md R207 and 10_state.md R38: a command leaves the arguments, the receive buffer and the fault
configuration as they were; they are written by the host. -/
def Obligations.CommandsLeaveTheHostsRegisters : Prop :=
  ∀ (s t : State) (op : Byte), s.issuedWord = some op → step s = .next t →
    t.arg = s.arg ∧ t.rxLen = s.rxLen ∧ t.rx = s.rx ∧ t.fi = s.fi

/-- 10_state.md R38, 41_encode.md R130: no command but ENCODE reads the fault configuration. -/
def Obligations.OnlyEncodeReadsTheFaultConfiguration : Prop :=
  ∀ (i : Instr) (s : State) (f : FaultConfig), i ≠ .encode →
    exec i { s with fi := f } = Outcome.map (fun t => { t with fi := f }) (exec i s)

/-- 60_exceptions.md R185: after a command the error registers are all 0, or hold an error of the catalogue with a code other
than 0; what they held before plays no part, so an earlier error is lost; and no host access but a `CMD` write changes
them. -/
def Obligations.ErrorRegistersDescribeTheLastCommand : Prop :=
  (∀ (i : Instr) (s t : State), exec i s = .next t → t.err.Legal ∧ (t.err.code = 0 → t.err = ⟨0, 0, 0, 0, 0⟩)) ∧
  (∀ (i : Instr) (s : State) (e : ErrRegs), exec i { s with err := e } = exec i s) ∧
  (∀ s t : State, s.issuedWord = none → (∀ rest, s.inbox ≠ .reset :: rest) → step s = .next t → t.err = s.err)

/-- 60_exceptions.md R189 with 10_state.md R48: nothing the host does is refused, and a step stops only by reading a buffer
byte that nothing has written since reset. The model's choices here: such a read stops the model (log entry 6), and a read of
an `ARG_*`, `PKT_*` or `DEC_*` register that nothing has written does not, where R48 asks for a model fault there too (log
entry 2). -/
def Obligations.OnlyUnwrittenBytesStopTheModel : Prop :=
  ∀ s : State, (∀ r, step s ≠ .refused r) ∧
    ∀ f, step s = .fault f →
      (∃ x, x < s.params.rxCap.val ∧ f = .unwrittenRx x ∧ s.rx.read x = none) ∨
      (∃ x, x < 49 ∧ f = .unwrittenTx x ∧ s.tx.read x = none)

/-- 10_state.md R48 for the buffers: a host read of an unwritten byte faults, and so does a DECODE that reads one
(95_test_vectors.md V-X11). On a buffer that is long enough it reads both vectors, and the other fields once both vectors are
right (42_decode.md R151); the fault names the first unwritten byte it comes to. The model's choices here: such a read stops
the model (log entry 6), and which byte the fault names (log entry 7). -/
def Obligations.UnwrittenBytesFault : Prop :=
  (∀ (s : State) (rest : List HostEvent) (i : Nat), s.inbox = .read 0x41 i :: rest → i < 49 → s.tx.read i = none →
    step s = .fault (.unwrittenTx i)) ∧
  (∀ (s : State) (rest : List HostEvent) (i : Nat), s.inbox = .read 0x51 i :: rest → i < s.params.rxCap.val →
    s.rx.read i = none → step s = .fault (.unwrittenRx i)) ∧
  (∀ (s : State) (x : Nat), 47 ≤ s.rxLen.toNat → (18 ≤ x ∧ x ≤ 21) ∨ (40 ≤ x ∧ x ≤ 43) → s.rx.read x = none →
    (∀ y, (18 ≤ y ∧ y ≤ 21) ∨ (40 ≤ y ∧ y ≤ 43) → y < x → (s.rx.read y).isSome) →
    exec .decode s = .fault (.unwrittenRx x)) ∧
  (∀ (s : State) (x : Nat), 47 ≤ s.rxLen.toNat →
    (∀ k, k < 4 → s.rx.read (18 + k) = (beBytes 4 s.params.vectorRootExtended.toNat)[k]?) →
    (∀ k, k < 4 → s.rx.read (40 + k) = (beBytes 4 s.params.vectorSync.toNat)[k]?) →
    (22 ≤ x ∧ x ≤ 37) ∨ (44 ≤ x ∧ x ≤ 46) → s.rx.read x = none →
    (∀ y, (22 ≤ y ∧ y ≤ 37) ∨ (44 ≤ y ∧ y ≤ 46) → y < x → (s.rx.read y).isSome) →
    exec .decode s = .fault (.unwrittenRx x))

/-! ## The register port -/

/-- The read half of 10_state.md R43, with R26, R31 and R35: what a host read of each register answers. The model's choice
here: `ARG_*`, `PKT_*` and `DEC_*` answer an unspecified value while nothing has written them, where 10_state.md R48 and
95_test_vectors.md V-X10 ask for a model fault (log entry 2). -/
def Obligations.HostReadsAnswerTheRegisters : Prop :=
  ∀ s : State,
    s.hostRead 0x00 0 = .ok 0 ∧
    s.hostRead 0x01 0 = .ok ((if s.pktValid then 1 else 0) + (if s.decValid then 2 else 0)) ∧
    s.hostRead 0x02 0 = .ok (s.err.code.setWidth 32) ∧ s.hostRead 0x03 0 = .ok (s.err.field.setWidth 32) ∧
    s.hostRead 0x04 0 = .ok s.err.info ∧ s.hostRead 0x05 0 = .ok s.err.lo ∧ s.hostRead 0x06 0 = .ok s.err.hi ∧
    (∀ i (h : i < 16), s.hostRead 0x10 i = .ok (s.arg.sid[i].setWidth 32)) ∧
    s.hostRead 0x11 0 = .ok s.arg.addr ∧ s.hostRead 0x12 0 = .ok s.arg.seq ∧
    (∀ i (h : i < 16), s.hostRead 0x20 i = .ok (s.pkt.sid[i].setWidth 32)) ∧
    s.hostRead 0x21 0 = .ok (s.pkt.addr.setWidth 32) ∧ s.hostRead 0x22 0 = .ok (s.pkt.seq.setWidth 32) ∧
    s.hostRead 0x30 0 = .ok ((s.fi.ctrl &&& 0x0F).setWidth 32) ∧
    s.hostRead 0x31 0 = .ok (s.fi.seqOffset.setWidth 32) ∧ s.hostRead 0x32 0 = .ok (s.fi.addrOffset.setWidth 32) ∧
    s.hostRead 0x40 0 = .ok (s.txLen.setWidth 32) ∧
    (∀ i b, i < 49 → s.tx.read i = some b → s.hostRead 0x41 i = .ok (b.setWidth 32)) ∧
    s.hostRead 0x50 0 = .ok (s.rxLen.setWidth 32) ∧
    (∀ i b, i < s.params.rxCap.val → s.rx.read i = some b → s.hostRead 0x51 i = .ok (b.setWidth 32)) ∧
    (∀ i (h : i < 16), s.hostRead 0x60 i = .ok (s.dec.sid[i].setWidth 32)) ∧
    s.hostRead 0x61 0 = .ok (s.dec.addr.setWidth 32) ∧ s.hostRead 0x62 0 = .ok (s.dec.seq.setWidth 32)

/-- 20_memory.md R59: a host read changes nothing but the value the host holds, and a second read of the same register
answers the same. -/
def Obligations.HostReadsHaveNoSideEffect : Prop :=
  (∀ (s t : State) (reg : Byte) (i : Nat) (rest : List HostEvent), s.inbox = .read reg i :: rest → step s = .next t →
    t = { s with inbox := rest, readData := t.readData } ∧ s.hostRead reg i = .ok t.readData) ∧
  (∀ (s t : State) (reg : Byte) (i : Nat) (rest : List HostEvent),
    s.inbox = .read reg i :: .read reg i :: rest → step s = .next t →
    ∃ u, step t = .next u ∧ u.readData = t.readData)

/-- The write half of 10_state.md R43 with 20_memory.md R53 and 10_state.md R35: each register the host may write takes the
value truncated to its width, `FI_CTRL` without its reserved bits, and nothing else of the block changes. -/
def Obligations.HostWritesStoreTruncatedValues : Prop :=
  ∀ (s : State) (v : Word) (rest : List HostEvent),
    (∀ i (h : i < 16), s.inbox = .write 0x10 i v :: rest → step s = .next { s with
      inbox := rest, arg := { s.arg with sid := s.arg.sid.set i (v.setWidth 8) }
      written := { s.written with argSid := s.written.argSid.set i true } }) ∧
    (s.inbox = .write 0x11 0 v :: rest → step s = .next { s with
      inbox := rest, arg := { s.arg with addr := v }, written := { s.written with argAddr := true } }) ∧
    (s.inbox = .write 0x12 0 v :: rest → step s = .next { s with
      inbox := rest, arg := { s.arg with seq := v }, written := { s.written with argSeq := true } }) ∧
    (s.inbox = .write 0x30 0 v :: rest → step s = .next { s with
      inbox := rest, fi := { s.fi with ctrl := v.setWidth 8 &&& 0x0F } }) ∧
    (s.inbox = .write 0x31 0 v :: rest → step s = .next { s with
      inbox := rest, fi := { s.fi with seqOffset := v.setWidth 8 } }) ∧
    (s.inbox = .write 0x32 0 v :: rest → step s = .next { s with
      inbox := rest, fi := { s.fi with addrOffset := v.setWidth 16 } }) ∧
    (s.inbox = .write 0x50 0 v :: rest → step s = .next { s with inbox := rest, rxLen := v.setWidth 16 }) ∧
    (∀ i, i < s.params.rxCap.val → s.inbox = .write 0x51 i v :: rest →
      ∃ t, step s = .next t ∧ t = { s with inbox := rest, rx := t.rx } ∧ t.rx.read i = some (v.setWidth 8) ∧
        ∀ a, a ≠ i → t.rx.read a = s.rx.read a)

/-- 10_state.md R44, 20_memory.md R57, R58, with the map's own numbers: an access to a reserved register number, to an array
at or beyond its length or to a scalar at another index than 0 reads 0 and writes nothing; a write to a read-only register
writes nothing at any index. Nothing is raised. A write is one of a value or of the value last read (30_encoding.md R88). -/
def Obligations.OtherAccessesAreIgnored : Prop :=
  ∀ (s : State) (reg : Byte) (i : Nat) (v : Word) (rest : List HostEvent),
    ((0x07 ≤ reg.toNat ∧ reg.toNat ≤ 0x0F) ∨ (0x13 ≤ reg.toNat ∧ reg.toNat ≤ 0x1F) ∨
        (0x23 ≤ reg.toNat ∧ reg.toNat ≤ 0x2F) ∨ (0x33 ≤ reg.toNat ∧ reg.toNat ≤ 0x3F) ∨
        (0x42 ≤ reg.toNat ∧ reg.toNat ≤ 0x4F) ∨ (0x52 ≤ reg.toNat ∧ reg.toNat ≤ 0x5F) ∨ 0x63 ≤ reg.toNat ∨
        (reg ∈ [0x10, 0x20, 0x60] ∧ 16 ≤ i) ∨ (reg = 0x41 ∧ 49 ≤ i) ∨ (reg = 0x51 ∧ s.params.rxCap.val ≤ i) ∨
        (reg ∈ [0x00, 0x01, 0x02, 0x03, 0x04, 0x05, 0x06, 0x11, 0x12, 0x21, 0x22, 0x30, 0x31, 0x32, 0x40, 0x50, 0x61, 0x62] ∧
          i ≠ 0) →
      (s.inbox = .read reg i :: rest → step s = .next { s with inbox := rest, readData := 0 }) ∧
      (s.inbox = .write reg i v :: rest ∨ s.inbox = .writeBack reg i :: rest → step s = .next { s with inbox := rest })) ∧
    (reg ∈ [0x01, 0x02, 0x03, 0x04, 0x05, 0x06, 0x20, 0x21, 0x22, 0x40, 0x41, 0x60, 0x61, 0x62] →
      s.inbox = .write reg i v :: rest ∨ s.inbox = .writeBack reg i :: rest → step s = .next { s with inbox := rest })

/-! ## Bytes -/

/-- 00_scope.md R11: `MemWrite` stores byte `k` of `n` as bits `8*(n-1-k)+7 : 8*(n-1-k)`, and `MemRead` of what it stored
gives the value back; the bytes outside are as before (20_memory.md R54: most significant byte first). -/
def Obligations.MemReadAfterMemWrite : Prop :=
  ∀ (m : Memory) (f : Nat → Fault) (a n v : Nat), v < 256 ^ n →
    (∀ k, k < n → (m.writeBytes a (beBytes n v)).read (a + k) = some (BitVec.ofNat 8 (v >>> (8 * (n - 1 - k))))) ∧
    (∃ w : Vector Byte n, (m.writeBytes a (beBytes n v)).readVec f a n = .ok w ∧ beNat w.toList = v) ∧
    (∀ x, ¬ (a ≤ x ∧ x < a + n) → (m.writeBytes a (beBytes n v)).read x = m.read x)

/-- 30_encoding.md R72 to R74: the flags+length field's two bytes for every length it holds, and the frame's two of them. -/
def Obligations.FlagsLengthPacking : Prop :=
  (∀ len : Nat, len ≤ 4095 →
    flagsLength len = 0x7000 + len ∧
    beBytes 2 (flagsLength len) =
      [0x70 ||| (BitVec.ofNat 12 len).extractLsb' 8 8, (BitVec.ofNat 12 len).extractLsb' 0 8]) ∧
  flagsLength (49 - 16) = 0x7021 ∧ beBytes 2 (flagsLength (49 - 16)) = [0x70, 0x21] ∧
  flagsLength (49 - 38) = 0x700B ∧ beBytes 2 (flagsLength (49 - 38)) = [0x70, 0x0B]

/-- 40_packet_fields.md R100 to R102: the two range checks and the errors they give. -/
def Obligations.RangeChecks : Prop :=
  (∀ a : Int, (1 ≤ a ∧ a ≤ 63999 → checkAddr a = none) ∧
    (¬ (1 ≤ a ∧ a ≤ 63999) → checkAddr a = some ⟨1, 1, BitVec.ofNat 32 (a % 2 ^ 32).toNat, 1, 63999⟩)) ∧
  (∀ q : Int, (0 ≤ q ∧ q ≤ 255 → checkSeq q = none) ∧
    (¬ (0 ≤ q ∧ q ≤ 255) → checkSeq q = some ⟨1, 2, BitVec.ofNat 32 (q % 2 ^ 32).toNat, 0, 255⟩))

/-! ## Host scripts -/

/-- 30_encoding.md R88: the host accesses a script line stands for. -/
def Obligations.ScriptLinesExpand : Prop :=
  (∀ (r : Reg) (v : Int), (HostLine.wr r v).expand = [.write r.number 0 (BitVec.ofInt 32 v)]) ∧
  (∀ (r : Reg) (i : Nat) (v : Int), (HostLine.wrAt r i v).expand = [.write r.number i (BitVec.ofInt 32 v)]) ∧
  (∀ r : Reg, (HostLine.rd r).expand = [.read r.number 0]) ∧
  (∀ (r : Reg) (i : Nat), (HostLine.rdAt r i).expand = [.read r.number i]) ∧
  (∀ c : Instr, (HostLine.command c).expand = [.write 0x00 0 ((encode c).setWidth 32)]) ∧
  (∀ (r : Reg) (bytes : List Int),
    (HostLine.wrb r bytes).expand = bytes.mapIdx fun i b => .write r.number i (BitVec.ofInt 32 b)) ∧
  (∀ (sid : List Int) (a q : Int), (HostLine.newWith sid a q).expand =
    (HostLine.wrb .argSid sid).expand ++ (HostLine.wr .argAddr a).expand ++ (HostLine.wr .argSeq q).expand ++
      (HostLine.command .new).expand) ∧
  (∀ (sid : List Int) (a : Int), (HostLine.newDefault sid a).expand = (HostLine.newWith sid a 0).expand) ∧
  (∀ a : Int, (HostLine.setaddrWith a).expand = (HostLine.wr .argAddr a).expand ++ [.write 0x00 0 0x02]) ∧
  (∀ q : Int, (HostLine.setseqWith q).expand = (HostLine.wr .argSeq q).expand ++ [.write 0x00 0 0x03]) ∧
  (∀ c so ao : Int, (HostLine.fi c so ao).expand =
    (HostLine.wr .fiCtrl c).expand ++ (HostLine.wr .fiSeqOffset so).expand ++ (HostLine.wr .fiAddrOffset ao).expand)
end

