-- ==== Sys2Proof/Laws/Frame.lean ====
section
/-! SUPPORT. Byte order and the frame, byte for byte. -/

namespace Sys2Proof.Machine

@[simp] theorem beBytes_length (n v : Nat) : (beBytes n v).length = n := by
  induction n with
  | zero => rfl
  | succ n ih => simp [beBytes, ih]

/-- Byte `k` of `n` is the value shifted down by the bytes after it (00_scope.md R11). -/
theorem beBytes_getElem? {n k : Nat} (v : Nat) (h : k < n) :
    (beBytes n v)[k]? = some (BitVec.ofNat 8 (v >>> (8 * (n - 1 - k)))) := by
  induction n generalizing k with
  | zero => omega
  | succ n ih =>
    cases k with
    | zero => simp [beBytes, Nat.shiftRight_eq_div_pow, Nat.pow_mul]
    | succ k =>
      simp only [beBytes, List.getElem?_cons_succ]
      rw [ih (by omega)]
      congr 4
      omega

theorem beNat_lt (bs : List Byte) : beNat bs < 256 ^ bs.length := by
  induction bs with
  | nil => simp [beNat]
  | cons b bs ih =>
    have hb : b.toNat < 256 := b.isLt
    have h1 : b.toNat * 256 ^ bs.length ≤ 255 * 256 ^ bs.length := Nat.mul_le_mul_right _ (by omega)
    simp only [beNat, List.length_cons, Nat.pow_succ]
    omega

/-- Storing big-endian keeps the low `8 * n` bits of a number: reading the bytes back gives it mod `256 ^ n`. -/
theorem beNat_beBytes_mod (n v : Nat) : beNat (beBytes n v) = v % 256 ^ n := by
  induction n with
  | zero => simp [beBytes, beNat, Nat.mod_one]
  | succ n ih =>
    simp only [beBytes, beNat, ih, beBytes_length, BitVec.toNat_ofNat, Nat.reducePow]
    rw [Nat.pow_succ, Nat.mod_mul, Nat.mul_comm]
    exact Nat.add_comm _ _

/-- A big-endian read after a big-endian write gives the value written. -/
theorem beNat_beBytes {n v : Nat} (h : v < 256 ^ n) : beNat (beBytes n v) = v := by
  rw [beNat_beBytes_mod, Nat.mod_eq_of_lt h]

/-- Two byte sequences of one length that stand for the same number are the same. -/
theorem beNat_inj {bs cs : List Byte} (hl : bs.length = cs.length) (h : beNat bs = beNat cs) : bs = cs := by
  induction bs generalizing cs with
  | nil => exact (List.length_eq_zero_iff.1 hl.symm).symm
  | cons b bs ih =>
    cases cs with
    | nil => exact absurd hl (by simp)
    | cons c cs =>
      have hl' : bs.length = cs.length := by simpa using hl
      simp only [beNat, hl'] at h
      have h1 := hl' ▸ beNat_lt bs
      have h2 := beNat_lt cs
      have hp : 0 < 256 ^ cs.length := Nat.pow_pos (by decide)
      have hb : b.toNat = c.toNat := by
        have := congrArg (· / 256 ^ cs.length) h
        simpa [Nat.mul_add_div hp, Nat.mul_comm _ (256 ^ cs.length), Nat.div_eq_of_lt h1, Nat.div_eq_of_lt h2]
          using this
      rw [hb] at h
      rw [BitVec.eq_of_toNat_eq hb, ih hl' (by omega)]

@[simp] theorem putBytes_length (f : List Byte) (a : Nat) (bs : List Byte) : (putBytes f a bs).length = f.length := by
  induction bs generalizing f a with
  | nil => rfl
  | cons b bs ih => simp [putBytes, ih]

/-- Bytes stored in a buffer: at their offsets they are there, elsewhere the buffer is as before. -/
theorem putBytes_getElem? (f : List Byte) (a : Nat) (bs : List Byte) {x : Nat} (hx : x < f.length) :
    (putBytes f a bs)[x]? = if a ≤ x ∧ x < a + bs.length then bs[x - a]? else f[x]? := by
  induction bs generalizing f a with
  | nil =>
    have : ¬ (a ≤ x ∧ x < a + ([] : List Byte).length) := by simp
    rw [if_neg this]
    rfl
  | cons b bs ih =>
    rw [putBytes, ih _ _ (by simpa using hx), List.getElem?_set]
    simp only [List.length_cons]
    by_cases hax : a = x
    · subst hax
      have h1 : ¬ (a + 1 ≤ a ∧ a < a + 1 + bs.length) := by omega
      have h2 : a ≤ a ∧ a < a + (bs.length + 1) := by omega
      rw [if_neg h1, if_pos h2]
      simp [hx]
    · by_cases hin : a + 1 ≤ x ∧ x < a + 1 + bs.length
      · have h2 : a ≤ x ∧ x < a + (bs.length + 1) := by omega
        have h3 : x - a = (x - (a + 1)) + 1 := by omega
        rw [if_pos hin, if_pos h2, h3, List.getElem?_cons_succ]
      · have h2 : ¬ (a ≤ x ∧ x < a + (bs.length + 1)) := by omega
        rw [if_neg hin, if_neg h2, if_neg hax]

/-! ## The conformant frame, field after field (30_encoding.md R71) -/

section
variable (p : Params) (pk : Packet)

@[simp] theorem frame_length : (frame p pk).length = frameLen := by
  simp [frame, frameLen]

theorem frame_preamble {k : Nat} (hk : k < 2) : (frame p pk)[k]? = (beBytes 2 p.preambleSize.toNat)[k]? := by
  simp only [frame, List.append_assoc]
  rw [List.getElem?_append_left (by simpa using hk)]

theorem frame_postamble {k : Nat} (hk : k < 2) : (frame p pk)[2 + k]? = some 0 := by
  have : k = 0 ∨ k = 1 := by omega
  rcases this with rfl | rfl <;> rfl

theorem frame_pid {k : Nat} (hk : k < 12) : (frame p pk)[4 + k]? = some p.acnPid[k] := by
  simp only [frame, List.getElem?_append, List.length_append, beBytes_length, Vector.length_toList, List.length_cons,
    List.length_nil]
  simp (disch := omega) only [if_pos, if_neg]
  simp [hk]

theorem frame_envLength {k : Nat} (hk : k < 2) : (frame p pk)[16 + k]? = [0x70, 0x21][k]? := by
  simp only [frame, List.getElem?_append, List.length_append, beBytes_length, Vector.length_toList, List.length_cons,
    List.length_nil]
  simp (disch := omega) only [if_pos, if_neg]
  simp only [Nat.reduceAdd, Nat.add_sub_cancel_left]
  rfl

theorem frame_envVector {k : Nat} (hk : k < 4) : (frame p pk)[18 + k]? = (beBytes 4 p.vectorRootExtended.toNat)[k]? := by
  simp only [frame, List.getElem?_append, List.length_append, beBytes_length, Vector.length_toList, List.length_cons,
    List.length_nil]
  simp (disch := omega) only [if_pos, if_neg]
  simp only [Nat.reduceAdd, Nat.add_sub_cancel_left]

theorem frame_sid {k : Nat} (hk : k < 16) : (frame p pk)[22 + k]? = some pk.sid[k] := by
  simp only [frame, List.getElem?_append, List.length_append, beBytes_length, Vector.length_toList, List.length_cons,
    List.length_nil]
  simp (disch := omega) only [if_pos, if_neg]
  simp [hk]

theorem frame_syncLength {k : Nat} (hk : k < 2) : (frame p pk)[38 + k]? = [0x70, 0x0B][k]? := by
  simp only [frame, List.getElem?_append, List.length_append, beBytes_length, Vector.length_toList, List.length_cons,
    List.length_nil]
  simp (disch := omega) only [if_pos, if_neg]
  simp only [Nat.reduceAdd, Nat.add_sub_cancel_left]
  rfl

theorem frame_syncVector {k : Nat} (hk : k < 4) : (frame p pk)[40 + k]? = (beBytes 4 p.vectorSync.toNat)[k]? := by
  simp only [frame, List.getElem?_append, List.length_append, beBytes_length, Vector.length_toList, List.length_cons,
    List.length_nil]
  simp (disch := omega) only [if_pos, if_neg]
  simp only [Nat.reduceAdd, Nat.add_sub_cancel_left]

theorem frame_seq : (frame p pk)[44]? = some pk.seq := by
  simp [frame]

theorem frame_addr {k : Nat} (hk : k < 2) : (frame p pk)[45 + k]? = (beBytes 2 pk.addr.toNat)[k]? := by
  simp only [frame, List.getElem?_append, List.length_append, beBytes_length, Vector.length_toList, List.length_cons,
    List.length_nil]
  simp (disch := omega) only [if_pos, if_neg]
  simp only [Nat.reduceAdd, Nat.add_sub_cancel_left]

theorem frame_reserved {k : Nat} (hk : k < 2) : (frame p pk)[47 + k]? = some 0 := by
  simp only [frame, List.getElem?_append, List.length_append, beBytes_length, Vector.length_toList, List.length_cons,
    List.length_nil]
  simp (disch := omega) only [if_pos, if_neg]
  simp only [Nat.reduceAdd, Nat.add_sub_cancel_left]
  have : k = 0 ∨ k = 1 := by omega
  rcases this with rfl | rfl <;> rfl

end

/-! ## The wire frame (41_encode.md R122 to R131) -/

@[simp] theorem zeroIf_length (c : Bool) (off : Nat) (f : List Byte) : (zeroIf c off f).length = f.length := by
  cases c <;> simp [zeroIf]

@[simp] theorem complementIf_length (c : Bool) (off : Nat) (f : List Byte) :
    (complementIf c off f).length = f.length := by
  cases c <;> simp [complementIf]

theorem zeroIf_getElem? (c : Bool) (off : Nat) (f : List Byte) {x : Nat} (hx : x < f.length) :
    (zeroIf c off f)[x]? = if c = true ∧ x = off then some 0 else f[x]? := by
  cases c
  · simp [zeroIf]
  · simp only [zeroIf, if_true, List.getElem?_set, true_and]
    by_cases h : off = x
    · simp [h, hx]
    · simp [h, Ne.symm h]

theorem complementIf_getElem? (c : Bool) (off : Nat) (f : List Byte) (x : Nat) :
    (complementIf c off f)[x]? = if c = true ∧ x = off then f[x]?.map (~~~ ·) else f[x]? := by
  cases c
  · simp [complementIf]
  · simp only [complementIf, if_true, List.getElem?_modify, true_and]
    by_cases h : off = x
    · simp [h]
    · simp [h, Ne.symm h]

@[simp] theorem wireFrame_length (p : Params) (pk : Packet) (f : FaultConfig) :
    (wireFrame p pk f).length = frameLen := by
  simp [wireFrame]

/-- Every byte of the wire frame: the six effects of the fault configuration, and the conformant frame elsewhere
(41_encode.md R131). -/
theorem wireFrame_getElem? (p : Params) (pk : Packet) (f : FaultConfig) {x : Nat} (hx : x < frameLen) :
    (wireFrame p pk f)[x]? =
      if x = 44 then some (wireSeq pk f)
      else if x = 45 ∨ x = 46 then (beBytes 2 (wireAddr pk f).toNat)[x - 45]?
      else if f.switch 0 = true ∧ x = p.fiPidOffset.val then some 0
      else if f.switch 1 = true ∧ x = p.fiPreambleOffset.val then (frame p pk)[x]?.map (~~~ ·)
      else if f.switch 2 = true ∧ x = p.fiEnvVecOffset.val then (frame p pk)[x]?.map (~~~ ·)
      else if f.switch 3 = true ∧ x = p.fiSyncVecOffset.val then (frame p pk)[x]?.map (~~~ ·)
      else (frame p pk)[x]? := by
  obtain ⟨a, ha⟩ := p.fiPidOffset.property
  obtain ⟨b, hb⟩ := p.fiPreambleOffset.property
  obtain ⟨c, hc⟩ := p.fiEnvVecOffset.property
  obtain ⟨d, hd⟩ := p.fiSyncVecOffset.property
  have hx' : x < ((frame p pk).set 44 (wireSeq pk f)).length := by simpa using hx
  have hx'' : x < (putBytes ((frame p pk).set 44 (wireSeq pk f)) 45 (beBytes 2 (wireAddr pk f).toNat)).length := by
    simpa using hx
  simp only [wireFrame, complementIf_getElem?, zeroIf_getElem? _ _ _ hx'', putBytes_getElem? _ _ _ hx', beBytes_length]
  have h44 : ((frame p pk).set 44 (wireSeq pk f))[x]? = if x = 44 then some (wireSeq pk f) else (frame p pk)[x]? := by
    rw [List.getElem?_set]
    by_cases h : x = 44
    · subst h
      simp [frameLen]
    · simp [h, Ne.symm h]
  rw [h44]
  by_cases h1 : x = 44
  · simp (disch := omega) only [if_pos, if_neg]
  · by_cases h2 : x = 45 ∨ x = 46
    · have e1 : ¬ (f.switch 0 = true ∧ x = p.fiPidOffset.val) := by omega
      have e2 : ¬ (f.switch 1 = true ∧ x = p.fiPreambleOffset.val) := by omega
      have e3 : ¬ (f.switch 2 = true ∧ x = p.fiEnvVecOffset.val) := by omega
      have e4 : ¬ (f.switch 3 = true ∧ x = p.fiSyncVecOffset.val) := by omega
      have e5 : 45 ≤ x ∧ x < 45 + 2 := by omega
      simp only [e1, e2, e3, e4, e5, h1, h2, if_false, if_true, and_self]
    · have e5 : ¬ (45 ≤ x ∧ x < 45 + 2) := by omega
      simp only [e5, h1, h2, if_false]
      by_cases s3 : f.switch 3 = true ∧ x = p.fiSyncVecOffset.val
      · have e1 : ¬ (f.switch 0 = true ∧ x = p.fiPidOffset.val) := by omega
        have e2 : ¬ (f.switch 1 = true ∧ x = p.fiPreambleOffset.val) := by omega
        have e3 : ¬ (f.switch 2 = true ∧ x = p.fiEnvVecOffset.val) := by omega
        simp only [e1, e2, e3, if_false]
      · by_cases s2 : f.switch 2 = true ∧ x = p.fiEnvVecOffset.val
        · have e1 : ¬ (f.switch 0 = true ∧ x = p.fiPidOffset.val) := by omega
          have e2 : ¬ (f.switch 1 = true ∧ x = p.fiPreambleOffset.val) := by omega
          simp only [e1, e2, s3, if_false]
        · by_cases s1 : f.switch 1 = true ∧ x = p.fiPreambleOffset.val
          · have e1 : ¬ (f.switch 0 = true ∧ x = p.fiPidOffset.val) := by omega
            simp only [e1, s2, s3, if_false]
          · simp only [s1, s2, s3, if_false]

/-- With every switch off and both offsets 0 the wire frame is the conformant frame (41_encode.md R120). -/
theorem wireFrame_noFault (p : Params) (pk : Packet) {f : FaultConfig} (hc : fiCtrlBits f.ctrl = 0)
    (hs : f.seqOffset = 0) (ha : f.addrOffset = 0) : wireFrame p pk f = frame p pk := by
  have hsw : ∀ b, b < 4 → f.switch b = false := by
    intro b hb
    have h : (f.ctrl &&& 0x0F#8).getLsbD b = (0#8).getLsbD b := congrArg (BitVec.getLsbD · b) hc
    rw [BitVec.getLsbD_and, BitVec.getLsbD_zero] at h
    have : b = 0 ∨ b = 1 ∨ b = 2 ∨ b = 3 := by omega
    rcases this with rfl | rfl | rfl | rfl <;> simpa [FaultConfig.switch] using h
  apply List.ext_getElem?
  intro x
  by_cases hx : x < frameLen
  · rw [wireFrame_getElem? p pk f hx]
    simp only [hsw 0 (by decide), hsw 1 (by decide), hsw 2 (by decide), hsw 3 (by decide), Bool.false_eq_true, false_and,
      if_false]
    split
    · next h => rw [h, frame_seq]; simp [wireSeq, hs]
    · split
      · next h =>
        have hk : x - 45 < 2 := by omega
        rw [show x = 45 + (x - 45) by omega, frame_addr p pk hk]
        simp [wireAddr, ha]
      · rfl
  · rw [List.getElem?_eq_none (by simpa using hx), List.getElem?_eq_none (by simpa using hx)]

end Sys2Proof.Machine
end

