-- ==== Sys2Proof/Laws/Memory.lean ====
section
/-! SUPPORT. What the byte-space operations do: a read after a write, and the canonical form. -/

namespace Sys2Proof.Machine

theorem Memory.read_write_same (m : Memory) (a : Nat) (b : Byte) : (m.write a b).read a = some b := by
  induction m with
  | nil => simp [Memory.write, Memory.read]
  | cons c m ih =>
    obtain ⟨k, v⟩ := c
    simp only [Memory.write]
    split
    · simp [Memory.read]
    · split
      · simp [Memory.read]
      · have : k ≠ a := by omega
        simp [Memory.read, this, ih]

theorem Memory.read_write_other (m : Memory) {a x : Nat} (b : Byte) (h : x ≠ a) : (m.write a b).read x = m.read x := by
  induction m with
  | nil => simp [Memory.write, Memory.read, h.symm]
  | cons c m ih =>
    obtain ⟨k, v⟩ := c
    simp only [Memory.write]
    split
    · simp [Memory.read, h.symm]
    · split
      · rename_i _ hk
        subst hk
        simp [Memory.read, h.symm]
      · simp [Memory.read, ih]

/-- Reading after a write: the written byte at its offset, every other byte as before. -/
theorem Memory.read_write (m : Memory) (a x : Nat) (b : Byte) :
    (m.write a b).read x = if x = a then some b else m.read x := by
  split
  · next h => rw [h, Memory.read_write_same]
  · next h => exact Memory.read_write_other m b h

/-- Reading after a write of bytes: the bytes at their offsets, every other byte as before. -/
theorem Memory.read_writeBytes (m : Memory) (a : Nat) (bs : List Byte) (x : Nat) :
    (m.writeBytes a bs).read x = if a ≤ x ∧ x < a + bs.length then bs[x - a]? else m.read x := by
  induction bs generalizing m a with
  | nil =>
    have : ¬ (a ≤ x ∧ x < a + ([] : List Byte).length) := by simp
    rw [if_neg this]
    rfl
  | cons b bs ih =>
    rw [Memory.writeBytes, ih, Memory.read_write]
    simp only [List.length_cons]
    by_cases hx : x = a
    · subst hx
      have h2 : x ≤ x ∧ x < x + (bs.length + 1) := by omega
      simp [h2]
    · by_cases hin : a + 1 ≤ x ∧ x < a + 1 + bs.length
      · have h2 : a ≤ x ∧ x < a + (bs.length + 1) := by omega
        have h3 : x - a = (x - (a + 1)) + 1 := by omega
        rw [if_pos hin, if_pos h2, h3, List.getElem?_cons_succ]
      · have h2 : ¬ (a ≤ x ∧ x < a + (bs.length + 1)) := by omega
        rw [if_neg hin, if_neg h2, if_neg hx]

/-- The canonical form as a proposition. -/
theorem Memory.wf_iff (size : Nat) (m : Memory) :
    m.wf size = true ↔ m.Pairwise (fun c d => c.1 < d.1) ∧ ∀ c ∈ m, c.1 < size := by
  simp [Memory.wf, List.pairwise_map]

theorem Memory.wf_nil (size : Nat) : Memory.wf size [] = true := by
  rw [Memory.wf_iff]
  simp

theorem Memory.mem_write {m : Memory} {a : Nat} {b : Byte} {c : Host.Cell} (h : c ∈ m.write a b) :
    c = (a, b) ∨ c ∈ m := by
  induction m with
  | nil => simpa [Memory.write] using h
  | cons d m ih =>
    obtain ⟨k, v⟩ := d
    simp only [Memory.write] at h
    split at h
    · simpa using h
    · split at h
      · rcases List.mem_cons.1 h with h | h
        · exact .inl h
        · exact .inr (List.mem_cons_of_mem _ h)
      · rcases List.mem_cons.1 h with h | h
        · exact .inr (by rw [h]; exact List.mem_cons_self)
        · exact (ih h).imp_right (List.mem_cons_of_mem _)

/-- A write inside the space keeps the canonical form. -/
theorem Memory.write_wf {size : Nat} {m : Memory} {a : Nat} (b : Byte) (hm : m.wf size = true) (ha : a < size) :
    (m.write a b).wf size = true := by
  rw [Memory.wf_iff] at hm ⊢
  obtain ⟨hs, hb⟩ := hm
  refine ⟨?_, fun c hc => ?_⟩
  · clear hb
    induction m with
    | nil => simp [Memory.write]
    | cons d m ih =>
      obtain ⟨k, v⟩ := d
      rw [List.pairwise_cons] at hs
      simp only [Memory.write]
      split
      · next h =>
        refine List.pairwise_cons.2 ⟨fun c hc => ?_, List.pairwise_cons.2 hs⟩
        rcases List.mem_cons.1 hc with hc | hc
        · simpa [hc] using h
        · exact Nat.lt_trans h (hs.1 c hc)
      · split
        · next h =>
          subst h
          exact List.pairwise_cons.2 ⟨hs.1, hs.2⟩
        · next h1 h2 =>
          refine List.pairwise_cons.2 ⟨fun c hc => ?_, ih hs.2⟩
          rcases Memory.mem_write hc with hc | hc
          · rw [hc]
            show k < a
            omega
          · exact hs.1 c hc
  · rcases Memory.mem_write hc with hc | hc
    · simpa [hc] using ha
    · exact hb c hc

/-- Writing bytes inside the space keeps the canonical form. -/
theorem Memory.writeBytes_wf {size : Nat} {m : Memory} (hm : m.wf size = true) {a : Nat} (bs : List Byte)
    (ha : a + bs.length ≤ size) : (m.writeBytes a bs).wf size = true := by
  induction bs generalizing m a with
  | nil => exact hm
  | cons b bs ih =>
    simp only [List.length_cons] at ha
    exact ih (Memory.write_wf b hm (by omega)) (by omega)

/-- In a canonical memory a byte is read exactly when it is listed. -/
theorem Memory.read_eq_some_iff_mem {m : Memory} (hs : m.Pairwise fun c d => c.1 < d.1) (a : Nat) (b : Byte) :
    m.read a = some b ↔ (a, b) ∈ m := by
  induction m with
  | nil => simp [Memory.read]
  | cons d m ih =>
    obtain ⟨k, v⟩ := d
    rw [List.pairwise_cons] at hs
    simp only [Memory.read]
    split
    · next h =>
      subst h
      constructor
      · intro h
        simp only [Option.some.injEq] at h
        simp [h]
      · intro h
        rcases List.mem_cons.1 h with h | h
        · simp only [Prod.mk.injEq, true_and] at h
          rw [h]
        · exact absurd (hs.1 _ h) (by simp)
    · next h =>
      rw [ih hs.2]
      constructor
      · exact List.mem_cons_of_mem _
      · intro hm
        rcases List.mem_cons.1 hm with hm | hm
        · simp only [Prod.mk.injEq] at hm
          exact absurd hm.1.symm h
        · exact hm

/-- The canonical form says each memory once: two canonical memories that read alike are equal. -/
theorem Memory.eq_of_read_eq {size : Nat} {m m' : Memory} (hm : m.wf size = true) (hm' : m'.wf size = true)
    (h : ∀ a, m.read a = m'.read a) : m = m' := by
  rw [Memory.wf_iff] at hm hm'
  have irrefl : ∀ l : Memory, l.Pairwise (fun c d => c.1 < d.1) → l.Nodup := fun l hl =>
    hl.imp fun hcd heq => absurd hcd (by simp [heq])
  have hp : m.Perm m' := by
    rw [List.perm_ext_iff_of_nodup (irrefl m hm.1) (irrefl m' hm'.1)]
    intro c
    rw [← Memory.read_eq_some_iff_mem hm.1 c.1 c.2, ← Memory.read_eq_some_iff_mem hm'.1 c.1 c.2, h]
  exact hp.eq_of_pairwise (fun a b _ _ hab hba => absurd hab (Nat.lt_asymm hba)) hm.1 hm'.1

/-- A read of consecutive written bytes answers them in order. -/
theorem Memory.readVec_ok {m : Memory} {f : Nat → Fault} {a n : Nat} {v : Vector Byte n} :
    m.readVec f a n = .ok v ↔ ∀ i (h : i < n), m.read (a + i) = some v[i] := by
  induction n with
  | zero =>
    simp only [Memory.readVec, Nat.not_lt_zero, IsEmpty.forall_iff, implies_true, iff_true]
    exact congrArg _ (Vector.eq_empty.symm)
  | succ n ih =>
    simp only [Memory.readVec]
    constructor
    · intro h
      split at h
      · exact absurd h (by simp)
      · next w hw =>
        rw [ih] at hw
        split at h
        · exact absurd h (by simp)
        · next b hb =>
          have hb' : m.read (a + n) = some b := by
            simp only [Memory.readOr] at hb
            split at hb
            · next hr => simpa [hr] using hb
            · exact absurd hb (by simp)
          simp only [Except.ok.injEq] at h
          subst h
          intro i hi
          rw [Vector.getElem_push]
          split
          · next hin => exact hw i hin
          · next hin =>
            have : i = n := by omega
            rw [this, hb']
    · intro h
      have hw : m.readVec f a n = .ok v.pop := by
        rw [ih]
        intro i hi
        simpa using h i (by omega)
      have hb : m.readOr f (a + n) = .ok v[n] := by
        simp [Memory.readOr, h n (by omega)]
      rw [hw, hb]
      simp only [Except.ok.injEq]
      ext i hi
      rw [Vector.getElem_push]
      split
      · simp
      · next hin =>
        have : i = n := by omega
        simp [this]

/-- A read of consecutive bytes faults only at an unwritten one. -/
theorem Memory.readVec_error {m : Memory} {f : Nat → Fault} {a n : Nat} {e : Fault} (h : m.readVec f a n = .error e) :
    ∃ i, i < n ∧ m.read (a + i) = none ∧ e = f (a + i) := by
  induction n with
  | zero => exact absurd h (by simp [Memory.readVec])
  | succ n ih =>
    simp only [Memory.readVec] at h
    split at h
    · next e' he =>
      obtain ⟨i, hi, hr, hf⟩ := ih (he.trans (congrArg _ (Except.error.inj h)))
      exact ⟨i, by omega, hr, hf⟩
    · split at h
      · next e' he =>
        simp only [Memory.readOr] at he
        split at he
        · exact absurd he (by simp)
        · next hr =>
          simp only [Except.error.injEq] at he h
          exact ⟨n, by omega, hr, by rw [← h, ← he]⟩
      · exact absurd h (by simp)

/-- A read of `n` bytes faults at the first of them that is unwritten. -/
theorem Memory.readVec_unwritten {m : Memory} (f : Nat → Fault) {a n k : Nat} (hk : k < n) (hn : m.read (a + k) = none)
    (hw : ∀ j, j < k → (m.read (a + j)).isSome) : m.readVec f a n = .error (f (a + k)) := by
  induction n with
  | zero => omega
  | succ n ih =>
    rw [Memory.readVec]
    by_cases h : k < n
    · rw [ih h]
    · obtain rfl : k = n := by omega
      cases hv : m.readVec f a k with
      | error e =>
        obtain ⟨j, hj, hr, -⟩ := Memory.readVec_error hv
        have := hw j hj
        rw [hr] at this
        cases this
      | ok v => simp [Memory.readOr, hn]

/-- Written bytes are the bytes of some vector. -/
theorem Memory.vector_of_isSome {m : Memory} {a n : Nat} (hw : ∀ j, j < n → (m.read (a + j)).isSome) :
    ∃ v : Vector Byte n, ∀ i (h : i < n), m.read (a + i) = some v[i] :=
  ⟨Vector.ofFn fun i => (m.read (a + i.val)).get (hw i i.isLt), fun i h => by simp⟩

/-- One byte: answered exactly when it is written. -/
theorem Memory.readOr_ok {m : Memory} {f : Nat → Fault} {a : Nat} {b : Byte} :
    m.readOr f a = .ok b ↔ m.read a = some b := by
  simp only [Memory.readOr]
  split <;> simp_all

/-- Reads depend on the bytes read and on no others. -/
theorem Memory.readVec_congr {m m' : Memory} (f : Nat → Fault) {a n : Nat}
    (h : ∀ i, i < n → m.read (a + i) = m'.read (a + i)) : m.readVec f a n = m'.readVec f a n := by
  induction n with
  | zero => rfl
  | succ n ih =>
    simp only [Memory.readVec, ih fun i hi => h i (by omega), Memory.readOr, h n (by omega)]

end Sys2Proof.Machine
end

