-- ==== Sys2Proof/Laws/State.lean ====
section
/-! SUPPORT. One lemma for each field under each update of the state, so that no proof unfolds a record update. -/

namespace Sys2Proof.Machine

variable (s : State)

/-! ## raise -/

@[simp] theorem State.raise_params (e : ErrRegs) : (s.raise e).params = s.params := rfl
@[simp] theorem State.raise_pktValid (e : ErrRegs) : (s.raise e).pktValid = s.pktValid := rfl
@[simp] theorem State.raise_decValid (e : ErrRegs) : (s.raise e).decValid = s.decValid := rfl
@[simp] theorem State.raise_err (e : ErrRegs) : (s.raise e).err = e := rfl
@[simp] theorem State.raise_arg (e : ErrRegs) : (s.raise e).arg = s.arg := rfl
@[simp] theorem State.raise_pkt (e : ErrRegs) : (s.raise e).pkt = s.pkt := rfl
@[simp] theorem State.raise_fi (e : ErrRegs) : (s.raise e).fi = s.fi := rfl
@[simp] theorem State.raise_txLen (e : ErrRegs) : (s.raise e).txLen = s.txLen := rfl
@[simp] theorem State.raise_tx (e : ErrRegs) : (s.raise e).tx = s.tx := rfl
@[simp] theorem State.raise_rxLen (e : ErrRegs) : (s.raise e).rxLen = s.rxLen := rfl
@[simp] theorem State.raise_rx (e : ErrRegs) : (s.raise e).rx = s.rx := rfl
@[simp] theorem State.raise_dec (e : ErrRegs) : (s.raise e).dec = s.dec := rfl
@[simp] theorem State.raise_written (e : ErrRegs) : (s.raise e).written = s.written := rfl
@[simp] theorem State.raise_inbox (e : ErrRegs) : (s.raise e).inbox = s.inbox := rfl
@[simp] theorem State.raise_readData (e : ErrRegs) : (s.raise e).readData = s.readData := rfl
@[simp] theorem State.raise_resets (e : ErrRegs) : (s.raise e).resets = s.resets := rfl

/-! ## done -/

@[simp] theorem State.done_params : (s.done).params = s.params := rfl
@[simp] theorem State.done_pktValid : (s.done).pktValid = s.pktValid := rfl
@[simp] theorem State.done_decValid : (s.done).decValid = s.decValid := rfl
@[simp] theorem State.done_err : (s.done).err = ⟨0, 0, 0, 0, 0⟩ := rfl
@[simp] theorem State.done_arg : (s.done).arg = s.arg := rfl
@[simp] theorem State.done_pkt : (s.done).pkt = s.pkt := rfl
@[simp] theorem State.done_fi : (s.done).fi = s.fi := rfl
@[simp] theorem State.done_txLen : (s.done).txLen = s.txLen := rfl
@[simp] theorem State.done_tx : (s.done).tx = s.tx := rfl
@[simp] theorem State.done_rxLen : (s.done).rxLen = s.rxLen := rfl
@[simp] theorem State.done_rx : (s.done).rx = s.rx := rfl
@[simp] theorem State.done_dec : (s.done).dec = s.dec := rfl
@[simp] theorem State.done_written : (s.done).written = s.written := rfl
@[simp] theorem State.done_inbox : (s.done).inbox = s.inbox := rfl
@[simp] theorem State.done_readData : (s.done).readData = s.readData := rfl
@[simp] theorem State.done_resets : (s.done).resets = s.resets := rfl

/-! ## raiseDecode -/

@[simp] theorem State.raiseDecode_params (e : ErrRegs) : (s.raiseDecode e).params = s.params := rfl
@[simp] theorem State.raiseDecode_pktValid (e : ErrRegs) : (s.raiseDecode e).pktValid = s.pktValid := rfl
@[simp] theorem State.raiseDecode_decValid (e : ErrRegs) : (s.raiseDecode e).decValid = false := rfl
@[simp] theorem State.raiseDecode_err (e : ErrRegs) : (s.raiseDecode e).err = e := rfl
@[simp] theorem State.raiseDecode_arg (e : ErrRegs) : (s.raiseDecode e).arg = s.arg := rfl
@[simp] theorem State.raiseDecode_pkt (e : ErrRegs) : (s.raiseDecode e).pkt = s.pkt := rfl
@[simp] theorem State.raiseDecode_fi (e : ErrRegs) : (s.raiseDecode e).fi = s.fi := rfl
@[simp] theorem State.raiseDecode_txLen (e : ErrRegs) : (s.raiseDecode e).txLen = s.txLen := rfl
@[simp] theorem State.raiseDecode_tx (e : ErrRegs) : (s.raiseDecode e).tx = s.tx := rfl
@[simp] theorem State.raiseDecode_rxLen (e : ErrRegs) : (s.raiseDecode e).rxLen = s.rxLen := rfl
@[simp] theorem State.raiseDecode_rx (e : ErrRegs) : (s.raiseDecode e).rx = s.rx := rfl
@[simp] theorem State.raiseDecode_dec (e : ErrRegs) : (s.raiseDecode e).dec = s.dec := rfl
@[simp] theorem State.raiseDecode_written (e : ErrRegs) : (s.raiseDecode e).written = s.written := rfl
@[simp] theorem State.raiseDecode_inbox (e : ErrRegs) : (s.raiseDecode e).inbox = s.inbox := rfl
@[simp] theorem State.raiseDecode_readData (e : ErrRegs) : (s.raiseDecode e).readData = s.readData := rfl
@[simp] theorem State.raiseDecode_resets (e : ErrRegs) : (s.raiseDecode e).resets = s.resets := rfl

/-! ## putPacket -/

@[simp] theorem State.putPacket_params (p : Packet) : (s.putPacket p).params = s.params := rfl
@[simp] theorem State.putPacket_pktValid (p : Packet) : (s.putPacket p).pktValid = true := rfl
@[simp] theorem State.putPacket_decValid (p : Packet) : (s.putPacket p).decValid = s.decValid := rfl
@[simp] theorem State.putPacket_err (p : Packet) : (s.putPacket p).err = s.err := rfl
@[simp] theorem State.putPacket_arg (p : Packet) : (s.putPacket p).arg = s.arg := rfl
@[simp] theorem State.putPacket_pkt (p : Packet) : (s.putPacket p).pkt = p := rfl
@[simp] theorem State.putPacket_fi (p : Packet) : (s.putPacket p).fi = s.fi := rfl
@[simp] theorem State.putPacket_txLen (p : Packet) : (s.putPacket p).txLen = s.txLen := rfl
@[simp] theorem State.putPacket_tx (p : Packet) : (s.putPacket p).tx = s.tx := rfl
@[simp] theorem State.putPacket_rxLen (p : Packet) : (s.putPacket p).rxLen = s.rxLen := rfl
@[simp] theorem State.putPacket_rx (p : Packet) : (s.putPacket p).rx = s.rx := rfl
@[simp] theorem State.putPacket_dec (p : Packet) : (s.putPacket p).dec = s.dec := rfl
@[simp] theorem State.putPacket_written (p : Packet) : (s.putPacket p).written = s.written := rfl
@[simp] theorem State.putPacket_inbox (p : Packet) : (s.putPacket p).inbox = s.inbox := rfl
@[simp] theorem State.putPacket_readData (p : Packet) : (s.putPacket p).readData = s.readData := rfl
@[simp] theorem State.putPacket_resets (p : Packet) : (s.putPacket p).resets = s.resets := rfl

/-! ## putPktAddr -/

@[simp] theorem State.putPktAddr_params (a : Half) : (s.putPktAddr a).params = s.params := rfl
@[simp] theorem State.putPktAddr_pktValid (a : Half) : (s.putPktAddr a).pktValid = s.pktValid := rfl
@[simp] theorem State.putPktAddr_decValid (a : Half) : (s.putPktAddr a).decValid = s.decValid := rfl
@[simp] theorem State.putPktAddr_err (a : Half) : (s.putPktAddr a).err = s.err := rfl
@[simp] theorem State.putPktAddr_arg (a : Half) : (s.putPktAddr a).arg = s.arg := rfl
@[simp] theorem State.putPktAddr_pkt (a : Half) : (s.putPktAddr a).pkt = { s.pkt with addr := a } := rfl
@[simp] theorem State.putPktAddr_fi (a : Half) : (s.putPktAddr a).fi = s.fi := rfl
@[simp] theorem State.putPktAddr_txLen (a : Half) : (s.putPktAddr a).txLen = s.txLen := rfl
@[simp] theorem State.putPktAddr_tx (a : Half) : (s.putPktAddr a).tx = s.tx := rfl
@[simp] theorem State.putPktAddr_rxLen (a : Half) : (s.putPktAddr a).rxLen = s.rxLen := rfl
@[simp] theorem State.putPktAddr_rx (a : Half) : (s.putPktAddr a).rx = s.rx := rfl
@[simp] theorem State.putPktAddr_dec (a : Half) : (s.putPktAddr a).dec = s.dec := rfl
@[simp] theorem State.putPktAddr_written (a : Half) : (s.putPktAddr a).written = s.written := rfl
@[simp] theorem State.putPktAddr_inbox (a : Half) : (s.putPktAddr a).inbox = s.inbox := rfl
@[simp] theorem State.putPktAddr_readData (a : Half) : (s.putPktAddr a).readData = s.readData := rfl
@[simp] theorem State.putPktAddr_resets (a : Half) : (s.putPktAddr a).resets = s.resets := rfl

/-! ## putPktSeq -/

@[simp] theorem State.putPktSeq_params (q : Byte) : (s.putPktSeq q).params = s.params := rfl
@[simp] theorem State.putPktSeq_pktValid (q : Byte) : (s.putPktSeq q).pktValid = s.pktValid := rfl
@[simp] theorem State.putPktSeq_decValid (q : Byte) : (s.putPktSeq q).decValid = s.decValid := rfl
@[simp] theorem State.putPktSeq_err (q : Byte) : (s.putPktSeq q).err = s.err := rfl
@[simp] theorem State.putPktSeq_arg (q : Byte) : (s.putPktSeq q).arg = s.arg := rfl
@[simp] theorem State.putPktSeq_pkt (q : Byte) : (s.putPktSeq q).pkt = { s.pkt with seq := q } := rfl
@[simp] theorem State.putPktSeq_fi (q : Byte) : (s.putPktSeq q).fi = s.fi := rfl
@[simp] theorem State.putPktSeq_txLen (q : Byte) : (s.putPktSeq q).txLen = s.txLen := rfl
@[simp] theorem State.putPktSeq_tx (q : Byte) : (s.putPktSeq q).tx = s.tx := rfl
@[simp] theorem State.putPktSeq_rxLen (q : Byte) : (s.putPktSeq q).rxLen = s.rxLen := rfl
@[simp] theorem State.putPktSeq_rx (q : Byte) : (s.putPktSeq q).rx = s.rx := rfl
@[simp] theorem State.putPktSeq_dec (q : Byte) : (s.putPktSeq q).dec = s.dec := rfl
@[simp] theorem State.putPktSeq_written (q : Byte) : (s.putPktSeq q).written = s.written := rfl
@[simp] theorem State.putPktSeq_inbox (q : Byte) : (s.putPktSeq q).inbox = s.inbox := rfl
@[simp] theorem State.putPktSeq_readData (q : Byte) : (s.putPktSeq q).readData = s.readData := rfl
@[simp] theorem State.putPktSeq_resets (q : Byte) : (s.putPktSeq q).resets = s.resets := rfl

/-! ## putFrame -/

@[simp] theorem State.putFrame_params (f : List Byte) : (s.putFrame f).params = s.params := rfl
@[simp] theorem State.putFrame_pktValid (f : List Byte) : (s.putFrame f).pktValid = s.pktValid := rfl
@[simp] theorem State.putFrame_decValid (f : List Byte) : (s.putFrame f).decValid = s.decValid := rfl
@[simp] theorem State.putFrame_err (f : List Byte) : (s.putFrame f).err = s.err := rfl
@[simp] theorem State.putFrame_arg (f : List Byte) : (s.putFrame f).arg = s.arg := rfl
@[simp] theorem State.putFrame_pkt (f : List Byte) : (s.putFrame f).pkt = s.pkt := rfl
@[simp] theorem State.putFrame_fi (f : List Byte) : (s.putFrame f).fi = s.fi := rfl
@[simp] theorem State.putFrame_txLen (f : List Byte) : (s.putFrame f).txLen = 49 := rfl
@[simp] theorem State.putFrame_tx (f : List Byte) : (s.putFrame f).tx = s.tx.writeBytes 0 f := rfl
@[simp] theorem State.putFrame_rxLen (f : List Byte) : (s.putFrame f).rxLen = s.rxLen := rfl
@[simp] theorem State.putFrame_rx (f : List Byte) : (s.putFrame f).rx = s.rx := rfl
@[simp] theorem State.putFrame_dec (f : List Byte) : (s.putFrame f).dec = s.dec := rfl
@[simp] theorem State.putFrame_written (f : List Byte) : (s.putFrame f).written = s.written := rfl
@[simp] theorem State.putFrame_inbox (f : List Byte) : (s.putFrame f).inbox = s.inbox := rfl
@[simp] theorem State.putFrame_readData (f : List Byte) : (s.putFrame f).readData = s.readData := rfl
@[simp] theorem State.putFrame_resets (f : List Byte) : (s.putFrame f).resets = s.resets := rfl

/-! ## putDecoded -/

@[simp] theorem State.putDecoded_params (p : Packet) : (s.putDecoded p).params = s.params := rfl
@[simp] theorem State.putDecoded_pktValid (p : Packet) : (s.putDecoded p).pktValid = s.pktValid := rfl
@[simp] theorem State.putDecoded_decValid (p : Packet) : (s.putDecoded p).decValid = true := rfl
@[simp] theorem State.putDecoded_err (p : Packet) : (s.putDecoded p).err = s.err := rfl
@[simp] theorem State.putDecoded_arg (p : Packet) : (s.putDecoded p).arg = s.arg := rfl
@[simp] theorem State.putDecoded_pkt (p : Packet) : (s.putDecoded p).pkt = s.pkt := rfl
@[simp] theorem State.putDecoded_fi (p : Packet) : (s.putDecoded p).fi = s.fi := rfl
@[simp] theorem State.putDecoded_txLen (p : Packet) : (s.putDecoded p).txLen = s.txLen := rfl
@[simp] theorem State.putDecoded_tx (p : Packet) : (s.putDecoded p).tx = s.tx := rfl
@[simp] theorem State.putDecoded_rxLen (p : Packet) : (s.putDecoded p).rxLen = s.rxLen := rfl
@[simp] theorem State.putDecoded_rx (p : Packet) : (s.putDecoded p).rx = s.rx := rfl
@[simp] theorem State.putDecoded_dec (p : Packet) : (s.putDecoded p).dec = p := rfl
@[simp] theorem State.putDecoded_written (p : Packet) : (s.putDecoded p).written = { s.written with dec := true } := rfl
@[simp] theorem State.putDecoded_inbox (p : Packet) : (s.putDecoded p).inbox = s.inbox := rfl
@[simp] theorem State.putDecoded_readData (p : Packet) : (s.putDecoded p).readData = s.readData := rfl
@[simp] theorem State.putDecoded_resets (p : Packet) : (s.putDecoded p).resets = s.resets := rfl

/-! ## putReadData -/

@[simp] theorem State.putReadData_params (v : Word) : (s.putReadData v).params = s.params := rfl
@[simp] theorem State.putReadData_pktValid (v : Word) : (s.putReadData v).pktValid = s.pktValid := rfl
@[simp] theorem State.putReadData_decValid (v : Word) : (s.putReadData v).decValid = s.decValid := rfl
@[simp] theorem State.putReadData_err (v : Word) : (s.putReadData v).err = s.err := rfl
@[simp] theorem State.putReadData_arg (v : Word) : (s.putReadData v).arg = s.arg := rfl
@[simp] theorem State.putReadData_pkt (v : Word) : (s.putReadData v).pkt = s.pkt := rfl
@[simp] theorem State.putReadData_fi (v : Word) : (s.putReadData v).fi = s.fi := rfl
@[simp] theorem State.putReadData_txLen (v : Word) : (s.putReadData v).txLen = s.txLen := rfl
@[simp] theorem State.putReadData_tx (v : Word) : (s.putReadData v).tx = s.tx := rfl
@[simp] theorem State.putReadData_rxLen (v : Word) : (s.putReadData v).rxLen = s.rxLen := rfl
@[simp] theorem State.putReadData_rx (v : Word) : (s.putReadData v).rx = s.rx := rfl
@[simp] theorem State.putReadData_dec (v : Word) : (s.putReadData v).dec = s.dec := rfl
@[simp] theorem State.putReadData_written (v : Word) : (s.putReadData v).written = s.written := rfl
@[simp] theorem State.putReadData_inbox (v : Word) : (s.putReadData v).inbox = s.inbox := rfl
@[simp] theorem State.putReadData_readData (v : Word) : (s.putReadData v).readData = v := rfl
@[simp] theorem State.putReadData_resets (v : Word) : (s.putReadData v).resets = s.resets := rfl

/-! ## pushEvent -/

@[simp] theorem State.pushEvent_params (e : HostEvent) : (s.pushEvent e).params = s.params := rfl
@[simp] theorem State.pushEvent_pktValid (e : HostEvent) : (s.pushEvent e).pktValid = s.pktValid := rfl
@[simp] theorem State.pushEvent_decValid (e : HostEvent) : (s.pushEvent e).decValid = s.decValid := rfl
@[simp] theorem State.pushEvent_err (e : HostEvent) : (s.pushEvent e).err = s.err := rfl
@[simp] theorem State.pushEvent_arg (e : HostEvent) : (s.pushEvent e).arg = s.arg := rfl
@[simp] theorem State.pushEvent_pkt (e : HostEvent) : (s.pushEvent e).pkt = s.pkt := rfl
@[simp] theorem State.pushEvent_fi (e : HostEvent) : (s.pushEvent e).fi = s.fi := rfl
@[simp] theorem State.pushEvent_txLen (e : HostEvent) : (s.pushEvent e).txLen = s.txLen := rfl
@[simp] theorem State.pushEvent_tx (e : HostEvent) : (s.pushEvent e).tx = s.tx := rfl
@[simp] theorem State.pushEvent_rxLen (e : HostEvent) : (s.pushEvent e).rxLen = s.rxLen := rfl
@[simp] theorem State.pushEvent_rx (e : HostEvent) : (s.pushEvent e).rx = s.rx := rfl
@[simp] theorem State.pushEvent_dec (e : HostEvent) : (s.pushEvent e).dec = s.dec := rfl
@[simp] theorem State.pushEvent_written (e : HostEvent) : (s.pushEvent e).written = s.written := rfl
@[simp] theorem State.pushEvent_inbox (e : HostEvent) : (s.pushEvent e).inbox = e :: s.inbox := rfl
@[simp] theorem State.pushEvent_readData (e : HostEvent) : (s.pushEvent e).readData = s.readData := rfl
@[simp] theorem State.pushEvent_resets (e : HostEvent) : (s.pushEvent e).resets = s.resets := rfl

/-! ## assertReset, over powerOn -/

@[simp] theorem State.assertReset_params : s.assertReset.params = s.params := rfl
@[simp] theorem State.assertReset_pktValid : s.assertReset.pktValid = (State.powerOn s.params (s.resets + 1)).pktValid := rfl
@[simp] theorem State.assertReset_decValid : s.assertReset.decValid = (State.powerOn s.params (s.resets + 1)).decValid := rfl
@[simp] theorem State.assertReset_err : s.assertReset.err = (State.powerOn s.params (s.resets + 1)).err := rfl
@[simp] theorem State.assertReset_arg : s.assertReset.arg = (State.powerOn s.params (s.resets + 1)).arg := rfl
@[simp] theorem State.assertReset_pkt : s.assertReset.pkt = (State.powerOn s.params (s.resets + 1)).pkt := rfl
@[simp] theorem State.assertReset_fi : s.assertReset.fi = (State.powerOn s.params (s.resets + 1)).fi := rfl
@[simp] theorem State.assertReset_txLen : s.assertReset.txLen = (State.powerOn s.params (s.resets + 1)).txLen := rfl
@[simp] theorem State.assertReset_tx : s.assertReset.tx = (State.powerOn s.params (s.resets + 1)).tx := rfl
@[simp] theorem State.assertReset_rxLen : s.assertReset.rxLen = (State.powerOn s.params (s.resets + 1)).rxLen := rfl
@[simp] theorem State.assertReset_rx : s.assertReset.rx = (State.powerOn s.params (s.resets + 1)).rx := rfl
@[simp] theorem State.assertReset_dec : s.assertReset.dec = (State.powerOn s.params (s.resets + 1)).dec := rfl
@[simp] theorem State.assertReset_written : s.assertReset.written = (State.powerOn s.params (s.resets + 1)).written := rfl
@[simp] theorem State.assertReset_inbox : s.assertReset.inbox = s.inbox := rfl
@[simp] theorem State.assertReset_readData : s.assertReset.readData = s.readData := rfl
@[simp] theorem State.assertReset_resets : s.assertReset.resets = s.resets + 1 := rfl

/-! ## powerOn: the values 10_state.md R47 gives -/

variable (p : Params) (k : Nat)

@[simp] theorem State.powerOn_params : (State.powerOn p k).params = p := rfl
@[simp] theorem State.powerOn_pktValid : (State.powerOn p k).pktValid = false := rfl
@[simp] theorem State.powerOn_decValid : (State.powerOn p k).decValid = false := rfl
@[simp] theorem State.powerOn_err : (State.powerOn p k).err = ⟨0, 0, 0, 0, 0⟩ := rfl
@[simp] theorem State.powerOn_fi : (State.powerOn p k).fi = ⟨0, 0, 0⟩ := rfl
@[simp] theorem State.powerOn_txLen : (State.powerOn p k).txLen = 0 := rfl
@[simp] theorem State.powerOn_tx : (State.powerOn p k).tx = [] := rfl
@[simp] theorem State.powerOn_rxLen : (State.powerOn p k).rxLen = 0 := rfl
@[simp] theorem State.powerOn_rx : (State.powerOn p k).rx = [] := rfl
@[simp] theorem State.powerOn_written : (State.powerOn p k).written = ⟨Vector.replicate 16 false, false, false, false⟩ := rfl
@[simp] theorem State.powerOn_inbox : (State.powerOn p k).inbox = [] := rfl
@[simp] theorem State.powerOn_readData : (State.powerOn p k).readData = 0 := rfl
@[simp] theorem State.powerOn_resets : (State.powerOn p k).resets = k := rfl

end Sys2Proof.Machine
end

