-- ==== Sys2Proof/Laws/Operands.lean ====
section
/-! SUPPORT. The range checks, the packet guard and the receive-buffer reads, each said once. -/

namespace Sys2Proof.Machine

@[simp] theorem ok_bind {α β : Type} (x : α) (k : α → Except Fault β) : (Except.ok x >>= k) = k x := rfl

@[simp] theorem error_bind {α β : Type} (f : Fault) (k : α → Except Fault β) :
    ((Except.error f : Except Fault α) >>= k) = .error f := rfl

theorem checkAddr_eq_none {a : Int} : checkAddr a = none ↔ 1 ≤ a ∧ a ≤ 63999 := by
  simp [checkAddr, addrMin, addrMax]

theorem checkAddr_eq_some {a : Int} {e : ErrRegs} : checkAddr a = some e ↔ ¬ (1 ≤ a ∧ a ≤ 63999) ∧ e = errAddr a := by
  simp [checkAddr, addrMin, addrMax, eq_comm]

theorem checkSeq_eq_none {q : Int} : checkSeq q = none ↔ 0 ≤ q ∧ q ≤ 255 := by
  simp [checkSeq]

theorem checkSeq_eq_some {q : Int} {e : ErrRegs} : checkSeq q = some e ↔ ¬ (0 ≤ q ∧ q ≤ 255) ∧ e = errSeq q := by
  simp [checkSeq, eq_comm]

theorem checkPacket_eq_none {a q : Int} : checkPacket a q = none ↔ (1 ≤ a ∧ a ≤ 63999) ∧ 0 ≤ q ∧ q ≤ 255 := by
  rw [checkPacket]
  split
  · next e h =>
    have := (checkAddr_eq_some.1 h).1
    simp only [reduceCtorEq, false_iff, not_and]
    exact fun h' => absurd h' this
  · next h => rw [checkSeq_eq_none, ← checkAddr_eq_none (a := a)]; simp [h]

/-- What a failed construction reports: the address if it is out of range, otherwise the sequence
(60_exceptions.md R188). -/
theorem checkPacket_eq_some {a q : Int} {e : ErrRegs} (h : checkPacket a q = some e) :
    (¬ (1 ≤ a ∧ a ≤ 63999) ∧ e = errAddr a) ∨ ((1 ≤ a ∧ a ≤ 63999) ∧ ¬ (0 ≤ q ∧ q ≤ 255) ∧ e = errSeq q) := by
  rw [checkPacket] at h
  split at h
  · next e' h' => exact .inl (by rw [← Option.some.inj h]; exact checkAddr_eq_some.1 h')
  · next h' => exact .inr ⟨checkAddr_eq_none.1 h', checkSeq_eq_some.1 h⟩

/-- A decoded sequence is one byte, so only the address can fail (42_decode.md R157). -/
theorem checkPacket_byte (a : Int) (q : Byte) : checkPacket a q.toNat = checkAddr a := by
  have hq : checkSeq (q.toNat : Int) = none := checkSeq_eq_none.2 (by have := q.isLt; omega)
  rw [checkPacket, hq]
  cases checkAddr a <;> rfl

theorem State.withPacket_held {s : State} (h : s.pktValid = true) (op : Byte) (k : State → State) :
    s.withPacket op k = k s := by
  simp [State.withPacket, h]

theorem State.withPacket_none {s : State} (h : s.pktValid = false) (op : Byte) (k : State → State) :
    s.withPacket op k = s.raise (errNoPacket op) := by
  simp [State.withPacket, h]

theorem State.rxByte_ok {s : State} {a : Nat} {b : Byte} : s.rxByte a = .ok b ↔ s.rx.read a = some b :=
  Memory.readOr_ok

theorem State.rxSid_ok {s : State} {a : Nat} {v : Sid} : s.rxSid a = .ok v ↔ ∀ i (h : i < 16), s.rx.read (a + i) = some v[i] :=
  Memory.readVec_ok

/-- `MemRead` of written bytes is their big-endian value. -/
theorem State.rxNat_ok {s : State} {a n : Nat} {v : Vector Byte n} (h : ∀ i (h : i < n), s.rx.read (a + i) = some v[i]) :
    s.rxNat a n = .ok (beNat v.toList) := by
  rw [State.rxNat, Memory.readVec_ok.2 h]

theorem State.rxNat_error {s : State} {a n : Nat} {e : Fault} (h : s.rxNat a n = .error e) :
    ∃ i, i < n ∧ s.rx.read (a + i) = none ∧ e = .unwrittenRx (a + i) := by
  rw [State.rxNat] at h
  split at h
  · next e' he =>
    obtain ⟨i, hi, hr, rfl⟩ := Memory.readVec_error he
    exact ⟨i, hi, hr, (Except.error.inj h).symm⟩
  · exact absurd h (by simp)

/-- `MemRead` names the first unwritten byte. -/
theorem State.rxNat_unwritten {s : State} {a n k : Nat} (hk : k < n) (hn : s.rx.read (a + k) = none)
    (hw : ∀ j, j < k → (s.rx.read (a + j)).isSome) : s.rxNat a n = .error (.unwrittenRx (a + k)) := by
  rw [State.rxNat, Memory.readVec_unwritten _ hk hn hw]

theorem State.rxByte_unwritten {s : State} {a : Nat} (hn : s.rx.read a = none) :
    s.rxByte a = .error (.unwrittenRx a) := by
  rw [State.rxByte, Memory.readOr, hn]

theorem State.rxByte_error {s : State} {a : Nat} {e : Fault} (h : s.rxByte a = .error e) :
    s.rx.read a = none ∧ e = .unwrittenRx a := by
  simp only [State.rxByte, Memory.readOr] at h
  split at h
  · exact absurd h (by simp)
  · next hr => exact ⟨hr, (Except.error.inj h).symm⟩

end Sys2Proof.Machine
end

