-- ==== Sys2Proof/Laws/Commands.lean ====
section
/-! SUPPORT. What each command can do, said once; later proofs cite these and do not unfold the meanings. -/

namespace Sys2Proof.Machine

/-- NEW answers a next state: an error that changes the error registers alone, or the new packet. -/
theorem execNew_cases (s : State) :
    (∃ e, checkPacket s.argAddrInt s.argSeqInt = some e ∧ execNew s = .next (s.raise e)) ∨
    (checkPacket s.argAddrInt s.argSeqInt = none ∧
      execNew s = .next (s.putPacket ⟨s.arg.sid, BitVec.ofInt 16 s.argAddrInt, BitVec.ofInt 8 s.argSeqInt⟩).done) := by
  rw [execNew]
  split
  · next e h => exact .inl ⟨e, h, rfl⟩
  · next h => exact .inr ⟨h, rfl⟩

/-- SET_SYNC_ADDRESS: no packet, a bad address, or the new address. -/
theorem execSetSyncAddress_cases (s : State) :
    (s.pktValid = false ∧ execSetSyncAddress s = .next (s.raise (errNoPacket 2))) ∨
    (s.pktValid = true ∧ ∃ e, checkAddr s.argAddrInt = some e ∧ execSetSyncAddress s = .next (s.raise e)) ∨
    (s.pktValid = true ∧ checkAddr s.argAddrInt = none ∧
      execSetSyncAddress s = .next (s.putPktAddr (BitVec.ofInt 16 s.argAddrInt)).done) := by
  rw [execSetSyncAddress]
  cases h : s.pktValid
  · rw [State.withPacket_none h]
    exact .inl ⟨rfl, rfl⟩
  · rw [State.withPacket_held h]
    split
    · next e he => exact .inr (.inl ⟨rfl, e, he, rfl⟩)
    · next he => exact .inr (.inr ⟨rfl, he, rfl⟩)

/-- SET_SEQUENCE: no packet, a bad sequence, or the new sequence. -/
theorem execSetSequence_cases (s : State) :
    (s.pktValid = false ∧ execSetSequence s = .next (s.raise (errNoPacket 3))) ∨
    (s.pktValid = true ∧ ∃ e, checkSeq s.argSeqInt = some e ∧ execSetSequence s = .next (s.raise e)) ∨
    (s.pktValid = true ∧ checkSeq s.argSeqInt = none ∧
      execSetSequence s = .next (s.putPktSeq (BitVec.ofInt 8 s.argSeqInt)).done) := by
  rw [execSetSequence]
  cases h : s.pktValid
  · rw [State.withPacket_none h]
    exact .inl ⟨rfl, rfl⟩
  · rw [State.withPacket_held h]
    split
    · next e he => exact .inr (.inl ⟨rfl, e, he, rfl⟩)
    · next he => exact .inr (.inr ⟨rfl, he, rfl⟩)

/-- ADVANCE: no packet, or the next sequence. -/
theorem execAdvance_cases (s : State) :
    (s.pktValid = false ∧ execAdvance s = .next (s.raise (errNoPacket 4))) ∨
    (s.pktValid = true ∧ execAdvance s = .next (s.putPktSeq (s.pkt.seq + 1)).done) := by
  rw [execAdvance]
  cases h : s.pktValid
  · exact .inl ⟨rfl, by rw [State.withPacket_none h]⟩
  · exact .inr ⟨rfl, by rw [State.withPacket_held h]⟩

/-- ENCODE: no packet, or the wire frame in `TX_BUF`. -/
theorem execEncode_cases (s : State) :
    (s.pktValid = false ∧ execEncode s = .next (s.raise (errNoPacket 5))) ∨
    (s.pktValid = true ∧ execEncode s = .next (s.putFrame (wireFrame s.params s.pkt s.fi)).done) := by
  rw [execEncode]
  cases h : s.pktValid
  · exact .inl ⟨rfl, by rw [State.withPacket_none h]⟩
  · exact .inr ⟨rfl, by rw [State.withPacket_held h]⟩

/-- What is read back from `TX_BUF` after a frame was stored there. -/
theorem State.putFrame_read (s : State) (f : List Byte) (x : Nat) :
    (s.putFrame f).tx.read x = if x < f.length then f[x]? else s.tx.read x := by
  rw [State.putFrame_tx, Memory.read_writeBytes]
  simp

/-- Accepting a decoded packet: its address is out of range, or it is the result. -/
theorem State.acceptDecoded_cases (s : State) (sid : Sid) (seq : Byte) (a : Nat) :
    (¬ (1 ≤ a ∧ a ≤ 63999) ∧ s.acceptDecoded sid seq a = s.raiseDecode (errAddr a)) ∨
    ((1 ≤ a ∧ a ≤ 63999) ∧ s.acceptDecoded sid seq a = (s.putDecoded ⟨sid, BitVec.ofNat 16 a, seq⟩).done) := by
  rw [State.acceptDecoded, checkPacket_byte]
  split
  · next e h =>
    obtain ⟨h, rfl⟩ := checkAddr_eq_some.1 h
    exact .inl ⟨by omega, rfl⟩
  · next h => exact .inr ⟨by have := checkAddr_eq_none.1 h; omega, rfl⟩

/-- Extraction faults at an unwritten byte, or accepts the extracted packet. -/
theorem State.extractDecoded_cases (s : State) :
    (∃ x, 22 ≤ x ∧ x ≤ 46 ∧ s.rx.read x = none ∧ s.extractDecoded = .error (.unwrittenRx x)) ∨
    (∃ sid seq high low, s.rxSid 22 = .ok sid ∧ s.rxByte 44 = .ok seq ∧ s.rxByte 45 = .ok high ∧ s.rxByte 46 = .ok low ∧
      s.extractDecoded = .ok (s.acceptDecoded sid seq (decodedAddr s.params.addrDecodeMult high low))) := by
  rw [State.extractDecoded]
  cases h1 : s.rxSid 22 with
  | error e =>
    obtain ⟨i, hi, hr, rfl⟩ := Memory.readVec_error h1
    exact .inl ⟨22 + i, by omega, by omega, hr, rfl⟩
  | ok sid =>
    cases h2 : s.rxByte 44 with
    | error e =>
      obtain ⟨hr, rfl⟩ := State.rxByte_error h2
      exact .inl ⟨44, by omega, by omega, hr, rfl⟩
    | ok seq =>
      cases h3 : s.rxByte 45 with
      | error e =>
        obtain ⟨hr, rfl⟩ := State.rxByte_error h3
        exact .inl ⟨45, by omega, by omega, hr, rfl⟩
      | ok high =>
        cases h4 : s.rxByte 46 with
        | error e =>
          obtain ⟨hr, rfl⟩ := State.rxByte_error h4
          exact .inl ⟨46, by omega, by omega, hr, rfl⟩
        | ok low => exact .inr ⟨sid, seq, high, low, rfl, rfl, rfl, rfl, rfl⟩

/-- The mismatch mask is 0 exactly when both vectors are right; otherwise it is 1, 2 or 3. -/
theorem mismatchMask_cases (d₁ d₂ : Bool) :
    (d₁ = false ∧ d₂ = false ∧ mismatchMask d₁ d₂ = 0) ∨ (d₁ = true ∧ d₂ = false ∧ mismatchMask d₁ d₂ = 1) ∨
    (d₁ = false ∧ d₂ = true ∧ mismatchMask d₁ d₂ = 2) ∨ (d₁ = true ∧ d₂ = true ∧ mismatchMask d₁ d₂ = 3) := by
  revert d₁ d₂
  decide

/-- The structural checks of DECODE fault at an unwritten byte, raise a mismatch, or go on to extraction. -/
theorem State.decodeLong_cases (s : State) :
    (∃ x, 18 ≤ x ∧ x ≤ 43 ∧ s.rx.read x = none ∧ s.decodeLong = .error (.unwrittenRx x)) ∨
    (∃ env syn, s.rxNat 18 4 = .ok env ∧ s.rxNat 40 4 = .ok syn ∧
      ((∃ m, mismatchMask (env != s.params.vectorRootExtended.toNat) (syn != s.params.vectorSync.toNat) = m ∧
          (m = 1 ∨ m = 2 ∨ m = 3) ∧ s.decodeLong = .ok (s.raiseDecode (errVectorMismatch m))) ∨
        (env = s.params.vectorRootExtended.toNat ∧ syn = s.params.vectorSync.toNat ∧
          s.decodeLong = s.extractDecoded))) := by
  rw [State.decodeLong]
  cases h1 : s.rxNat 18 4 with
  | error e =>
    obtain ⟨i, hi, hr, rfl⟩ := State.rxNat_error h1
    exact .inl ⟨18 + i, by omega, by omega, hr, rfl⟩
  | ok env =>
    cases h2 : s.rxNat 40 4 with
    | error e =>
      obtain ⟨i, hi, hr, rfl⟩ := State.rxNat_error h2
      exact .inl ⟨40 + i, by omega, by omega, hr, rfl⟩
    | ok syn =>
      refine .inr ⟨env, syn, rfl, rfl, ?_⟩
      simp only [ok_bind]
      rcases mismatchMask_cases (env != s.params.vectorRootExtended.toNat) (syn != s.params.vectorSync.toNat) with
        ⟨h, h', hm⟩ | ⟨_, _, hm⟩ | ⟨_, _, hm⟩ | ⟨_, _, hm⟩
      · rw [hm]
        exact .inr ⟨by simpa using h, by simpa using h', rfl⟩
      · rw [hm]
        exact .inl ⟨1, rfl, .inl rfl, rfl⟩
      · rw [hm]
        exact .inl ⟨2, rfl, .inr (.inl rfl), rfl⟩
      · rw [hm]
        exact .inl ⟨3, rfl, .inr (.inr rfl), rfl⟩

/-- DECODE: everything it can do. -/
theorem execDecode_cases (s : State) :
    (s.rxLen.toNat < 47 ∧ execDecode s = .next (s.raiseDecode (errTooShort s.rxLen))) ∨
    (47 ≤ s.rxLen.toNat ∧ ∃ x, 18 ≤ x ∧ x ≤ 46 ∧ s.rx.read x = none ∧ execDecode s = .fault (.unwrittenRx x)) ∨
    (47 ≤ s.rxLen.toNat ∧ ∃ m : Byte, (m = 1 ∨ m = 2 ∨ m = 3) ∧
      execDecode s = .next (s.raiseDecode (errVectorMismatch m))) ∨
    (47 ≤ s.rxLen.toNat ∧ ∃ a : Nat, ¬ (1 ≤ a ∧ a ≤ 63999) ∧ execDecode s = .next (s.raiseDecode (errAddr a))) ∨
    (47 ≤ s.rxLen.toNat ∧ ∃ sid seq, ∃ a : Nat, (1 ≤ a ∧ a ≤ 63999) ∧
      execDecode s = .next (s.putDecoded ⟨sid, BitVec.ofNat 16 a, seq⟩).done) := by
  rw [execDecode]
  by_cases hl : s.rxLen.toNat < 47
  · exact .inl ⟨hl, if_pos hl⟩
  · rw [if_neg (show ¬ s.rxLen.toNat < decodeFloor from hl)]
    have hl' : 47 ≤ s.rxLen.toNat := by omega
    rcases s.decodeLong_cases with ⟨x, h1, h2, hr, h⟩ | ⟨env, syn, _, _, ⟨m, _, hm, h⟩ | ⟨_, _, h⟩⟩
    · exact .inr (.inl ⟨hl', x, h1, by omega, hr, by rw [h]; rfl⟩)
    · exact .inr (.inr (.inl ⟨hl', m, hm, by rw [h]; rfl⟩))
    · rw [h]
      rcases s.extractDecoded_cases with ⟨x, h1, h2, hr, h⟩ | ⟨sid, seq, high, low, _, _, _, _, h⟩
      · exact .inr (.inl ⟨hl', x, by omega, h2, hr, by rw [h]; rfl⟩)
      · rw [h]
        rcases s.acceptDecoded_cases sid seq (decodedAddr s.params.addrDecodeMult high low) with ⟨ha, h⟩ | ⟨ha, h⟩
        · exact .inr (.inr (.inr (.inl ⟨hl', _, ha, by rw [h]; rfl⟩)))
        · exact .inr (.inr (.inr (.inr ⟨hl', sid, seq, _, ha, by rw [h]; rfl⟩)))

/-- With both vectors right DECODE goes on to the extraction (42_decode.md R153, R154). -/
theorem State.decodeLong_of_vectors {s : State}
    (he : ∀ k, k < 4 → s.rx.read (18 + k) = (beBytes 4 s.params.vectorRootExtended.toNat)[k]?)
    (hy : ∀ k, k < 4 → s.rx.read (40 + k) = (beBytes 4 s.params.vectorSync.toNat)[k]?) :
    s.decodeLong = s.extractDecoded := by
  have key : ∀ (a : Nat) (w : Word), (∀ k, k < 4 → s.rx.read (a + k) = (beBytes 4 w.toNat)[k]?) →
      s.rxNat a 4 = .ok w.toNat := by
    intro a w h
    have hv : s.rxNat a 4 = .ok (beNat (⟨(beBytes 4 w.toNat).toArray, by simp⟩ : Vector Byte 4).toList) := by
      refine State.rxNat_ok fun i hi => ?_
      rw [h i hi, List.getElem?_eq_getElem (by simpa using hi)]
      rfl
    rw [hv]
    simp only [Vector.toList]
    rw [beNat_beBytes (by have := w.isLt; omega)]
  rw [State.decodeLong, key 18 _ he, key 40 _ hy]
  simp only [ok_bind, bne_self_eq_false]
  exact if_neg (by decide)

/-- A buffer whose bytes 18 to 46 are written is read without a fault, and each part is known. -/
theorem State.decodeLong_of_reads {s : State} {env syn : Vector Byte 4} {sid : Sid} {seq high low : Byte}
    (he : ∀ i (h : i < 4), s.rx.read (18 + i) = some env[i]) (hs : ∀ i (h : i < 16), s.rx.read (22 + i) = some sid[i])
    (hy : ∀ i (h : i < 4), s.rx.read (40 + i) = some syn[i]) (hq : s.rx.read 44 = some seq)
    (hh : s.rx.read 45 = some high) (hl : s.rx.read 46 = some low) :
    s.decodeLong = .ok
      (if mismatchMask (beNat env.toList != s.params.vectorRootExtended.toNat)
          (beNat syn.toList != s.params.vectorSync.toNat) ≠ 0 then
        s.raiseDecode (errVectorMismatch (mismatchMask (beNat env.toList != s.params.vectorRootExtended.toNat)
          (beNat syn.toList != s.params.vectorSync.toNat)))
      else s.acceptDecoded sid seq (decodedAddr s.params.addrDecodeMult high low)) := by
  rw [State.decodeLong, State.rxNat_ok he, State.rxNat_ok hy]
  simp only [ok_bind]
  split
  · rfl
  · rw [State.extractDecoded, State.rxSid_ok.2 hs, State.rxByte_ok.2 hq, State.rxByte_ok.2 hh, State.rxByte_ok.2 hl]
    rfl

/-- What DECODE's checks and extraction come to: a fault, an error or a packet that the parameters and the receive buffer
alone decide (42_decode.md R162). -/
theorem State.decodeLong_result (s : State) : ∃ r : Except Fault (Except ErrRegs Packet), ∀ s' : State,
    s'.params = s.params → s'.rx = s.rx →
    s'.decodeLong = r.map (fun | .error e => s'.raiseDecode e | .ok p => (s'.putDecoded p).done) := by
  have key : ∀ s' : State, s'.rx = s.rx → s'.rxNat 18 4 = s.rxNat 18 4 ∧ s'.rxNat 40 4 = s.rxNat 40 4 ∧
      s'.rxSid 22 = s.rxSid 22 ∧ s'.rxByte 44 = s.rxByte 44 ∧ s'.rxByte 45 = s.rxByte 45 ∧
      s'.rxByte 46 = s.rxByte 46 := by
    intro s' h
    simp only [State.rxNat, State.rxSid, State.rxByte, h, and_self]
  simp only [State.decodeLong, State.extractDecoded]
  rcases h1 : s.rxNat 18 4 with e | env
  · exact ⟨.error e, fun s' _ h => by obtain ⟨k1, -⟩ := key s' h; rw [k1, h1]; rfl⟩
  rcases h2 : s.rxNat 40 4 with e | syn
  · exact ⟨.error e, fun s' _ h => by obtain ⟨k1, k2, -⟩ := key s' h; rw [k1, k2, h1, h2]; rfl⟩
  generalize hd : mismatchMask (env != s.params.vectorRootExtended.toNat) (syn != s.params.vectorSync.toNat) = m
  by_cases hm : m ≠ 0
  · refine ⟨.ok (.error (errVectorMismatch m)), fun s' hp h => ?_⟩
    obtain ⟨k1, k2, -⟩ := key s' h
    rw [k1, k2, h1, h2, hp]
    simp only [ok_bind, hd]
    rw [if_pos hm]
    rfl
  have rest : ∀ s' : State, s'.params = s.params → s'.rx = s.rx →
      (do let env ← s'.rxNat 18 4
          let syn ← s'.rxNat 40 4
          let m := mismatchMask (env != s'.params.vectorRootExtended.toNat) (syn != s'.params.vectorSync.toNat)
          if m ≠ 0 then return s'.raiseDecode (errVectorMismatch m)
          s'.extractDecoded) = s'.extractDecoded := by
    intro s' hp h
    obtain ⟨k1, k2, -⟩ := key s' h
    rw [k1, k2, h1, h2, hp]
    simp only [ok_bind, hd]
    rw [if_neg hm]
  simp only [State.extractDecoded] at rest
  rcases h3 : s.rxSid 22 with e | sid
  · exact ⟨.error e, fun s' hp h => by obtain ⟨-, -, k3, -⟩ := key s' h; rw [rest s' hp h, k3, h3]; rfl⟩
  rcases h4 : s.rxByte 44 with e | seq
  · exact ⟨.error e, fun s' hp h => by obtain ⟨-, -, k3, k4, -⟩ := key s' h; rw [rest s' hp h, k3, k4, h3, h4]; rfl⟩
  rcases h5 : s.rxByte 45 with e | high
  · exact ⟨.error e, fun s' hp h => by
      obtain ⟨-, -, k3, k4, k5, -⟩ := key s' h; rw [rest s' hp h, k3, k4, k5, h3, h4, h5]; rfl⟩
  rcases h6 : s.rxByte 46 with e | low
  · exact ⟨.error e, fun s' hp h => by
      obtain ⟨-, -, k3, k4, k5, k6⟩ := key s' h; rw [rest s' hp h, k3, k4, k5, k6, h3, h4, h5, h6]; rfl⟩
  cases hc : checkPacket (decodedAddr s.params.addrDecodeMult high low) seq.toNat with
  | some e =>
    refine ⟨.ok (.error e), fun s' hp h => ?_⟩
    obtain ⟨-, -, k3, k4, k5, k6⟩ := key s' h
    rw [rest s' hp h, k3, k4, k5, k6, h3, h4, h5, h6]
    simp only [ok_bind, State.acceptDecoded, hp, hc]
    rfl
  | none =>
    refine ⟨.ok (.ok ⟨sid, BitVec.ofNat 16 (decodedAddr s.params.addrDecodeMult high low), seq⟩), fun s' hp h => ?_⟩
    obtain ⟨-, -, k3, k4, k5, k6⟩ := key s' h
    rw [rest s' hp h, k3, k4, k5, k6, h3, h4, h5, h6]
    simp only [ok_bind, State.acceptDecoded, hp, hc]
    rfl

/-- DECODE of a buffer that is long enough. -/
theorem execDecode_long {s : State} (h : 47 ≤ s.rxLen.toNat) : execDecode s = outcomeOf s.decodeLong := by
  rw [execDecode, if_neg (show ¬ s.rxLen.toNat < decodeFloor from Nat.not_lt.2 h)]

end Sys2Proof.Machine
end

