-- ==== Sys2Proof/Laws/Port.lean ====
section
/-! SUPPORT. The register map, the port and the step: what an event can do. -/

namespace Sys2Proof.Machine

@[simp] theorem Reg.ofNumber_number (r : Reg) : Reg.ofNumber r.number = some r := by
  cases r <;> rfl

theorem Reg.mem_all (r : Reg) : r ∈ Reg.all := by
  cases r <;> decide

/-- The register map is a bijection between its numbers and its registers. -/
theorem Reg.ofNumber_eq_some {n : Byte} {r : Reg} : Reg.ofNumber n = some r ↔ r.number = n := by
  constructor
  · intro h
    simpa using List.find?_some h
  · rintro rfl
    exact Reg.ofNumber_number r

/-- Decoding and encoding are inverse to each other. -/
theorem decode_eq_command {op : Byte} {i : Instr} : decode op = .command i ↔ op = encode i := by
  constructor
  · intro h
    rw [decode] at h
    split at h
    · next j hj =>
      obtain rfl := Decoded.command.inj h
      have hm : ∀ b : Byte, b &&& 0xFF = b := fun b => BitVec.and_allOnes
      simp only [opcodeTable, findRow, hm] at hj
      repeat' split at hj
      all_goals first | (obtain rfl := Option.some.inj hj; assumption) | cases hj
    · exact absurd h (by simp)
  · rintro rfl
    cases i <;> rfl

/-- What is not a command is reserved, and is one of the reserved opcodes (30_encoding.md R84). -/
theorem decode_eq_reserved {op op' : Byte} (h : decode op = .reserved op') : op' = op ∧ (op = 0 ∨ 7 ≤ op.toNat) := by
  have h' := h
  rw [decode] at h'
  split at h'
  · exact absurd h' (by simp)
  · obtain rfl := Decoded.reserved.inj h'
    refine ⟨rfl, ?_⟩
    by_contra hc
    have hn : op.toNat = 1 ∨ op.toNat = 2 ∨ op.toNat = 3 ∨ op.toNat = 4 ∨ op.toNat = 5 ∨ op.toNat = 6 := by
      have h0 : op.toNat ≠ 0 := fun h0 => hc (.inl (BitVec.eq_of_toNat_eq h0))
      omega
    have hop : ∀ n, op.toNat = n → op = BitVec.ofNat 8 n := fun n hn => by rw [← hn]; simp
    rcases hn with hn | hn | hn | hn | hn | hn <;> rw [hop _ hn] at h <;> exact absurd h (by decide)

/-- The step takes the head of the inbox. -/
theorem step_cons {s : State} {e : HostEvent} {rest : List HostEvent} (h : s.inbox = e :: rest) :
    step s = perform e { s with inbox := rest } := by
  simp only [step, State.takeEvent, h]

/-- With nothing asked for the block waits (70_reset_and_hazards.md R202). -/
theorem step_nil {s : State} (h : s.inbox = []) : step s = .next s := by
  simp only [step, State.takeEvent, h]

/-- A host write: it issues a command, stores in a register, or is ignored. -/
theorem State.hostWrite_cases (s : State) (reg : Byte) (i : Nat) (v : Word) :
    (reg = Reg.cmd.number ∧ i = 0 ∧ s.hostWrite reg i v = issue (v.setWidth 8) s) ∨
    (∃ r, r ≠ .cmd ∧ r.number = reg ∧ i < r.length s.params ∧ s.hostWrite reg i v = .next (s.writeReg r i v)) ∨
    ((∀ r : Reg, r.number = reg → ¬ i < r.length s.params) ∧ s.hostWrite reg i v = .next s) := by
  rw [State.hostWrite]
  split
  · next h =>
    refine .inr (.inr ⟨fun r hr => ?_, rfl⟩)
    rw [← hr, Reg.ofNumber_number] at h
    exact absurd h (by simp)
  · next r h =>
    obtain rfl := Reg.ofNumber_eq_some.1 h
    split
    · next hi =>
      split
      · next hr =>
        subst hr
        exact .inl ⟨rfl, by simpa [Reg.length] using hi, rfl⟩
      · next hr => exact .inr (.inl ⟨r, hr, rfl, hi, rfl⟩)
    · next hi =>
      refine .inr (.inr ⟨fun r' hr => ?_, rfl⟩)
      have : r' = r := by
        have := congrArg Reg.ofNumber hr
        simpa using this
      rwa [this]

/-- Two registers with one number are one. -/
theorem Reg.number_inj {r r' : Reg} (h : r.number = r'.number) : r = r' := by
  simpa using congrArg Reg.ofNumber h

/-- A host read answers a value, or faults at an unwritten buffer byte (10_state.md R48). -/
theorem State.hostRead_error {s : State} {reg : Byte} {i : Nat} {f : Fault} (h : s.hostRead reg i = .error f) :
    (i < s.params.rxCap.val ∧ f = .unwrittenRx i ∧ s.rx.read i = none) ∨
    (i < frameLen ∧ f = .unwrittenTx i ∧ s.tx.read i = none) := by
  rw [State.hostRead] at h
  split at h
  · exact absurd h (by simp)
  · next r hr =>
    split at h
    · next hi =>
      cases r <;> simp only [State.readReg, reduceCtorEq] at h
      · cases hb : s.txByte i with
        | ok b => rw [hb] at h; exact absurd h (by simp [Except.map])
        | error e =>
          simp only [State.txByte, Memory.readOr] at hb
          split at hb
          · exact absurd hb (by simp)
          · next hn =>
            rw [State.txByte, Memory.readOr, hn] at h
            exact .inr ⟨hi, (Except.error.inj h).symm, hn⟩
      · cases hb : s.rxByte i with
        | ok b => rw [hb] at h; exact absurd h (by simp [Except.map])
        | error e =>
          rw [hb] at h
          obtain ⟨hn, rfl⟩ := State.rxByte_error hb
          exact .inl ⟨hi, (Except.error.inj h).symm, hn⟩
    · exact absurd h (by simp)

/-- No command is refused. -/
theorem exec_not_refused (i : Instr) (s : State) (r : Refusal) : exec i s ≠ .refused r := by
  cases i <;> rw [exec]
  · rcases execNew_cases s with ⟨_, _, h⟩ | ⟨_, h⟩ <;> simp [h]
  · rcases execSetSyncAddress_cases s with ⟨_, h⟩ | ⟨_, _, _, h⟩ | ⟨_, _, h⟩ <;> simp [h]
  · rcases execSetSequence_cases s with ⟨_, h⟩ | ⟨_, _, _, h⟩ | ⟨_, _, h⟩ <;> simp [h]
  · rcases execAdvance_cases s with ⟨_, h⟩ | ⟨_, h⟩ <;> simp [h]
  · rcases execEncode_cases s with ⟨_, h⟩ | ⟨_, h⟩ <;> simp [h]
  · rcases execDecode_cases s with ⟨_, h⟩ | ⟨_, _, _, _, _, h⟩ | ⟨_, _, _, h⟩ | ⟨_, _, _, h⟩ | ⟨_, _, _, _, _, h⟩ <;>
      simp [h]

end Sys2Proof.Machine
end

