-- ==== Sys2Proof/Laws/Step.lean ====
section
/-! SUPPORT. What one step can do, said once: the inversion lemmas for commands, events, the step and a run. -/

namespace Sys2Proof.Machine

/-! ## The events -/

@[simp] theorem perform_write (reg : Byte) (i : Nat) (v : Word) (s : State) :
    perform (.write reg i v) s = s.hostWrite reg i v := rfl

@[simp] theorem perform_writeBack (reg : Byte) (i : Nat) (s : State) :
    perform (.writeBack reg i) s = s.hostWrite reg i s.readData := rfl

@[simp] theorem perform_reset (s : State) : perform .reset s = .next s.assertReset := rfl

theorem perform_read_ok {reg : Byte} {i : Nat} {s : State} {v : Word} (h : s.hostRead reg i = .ok v) :
    perform (.read reg i) s = .next (s.putReadData v) := by
  simp only [perform, h]

theorem perform_read_error {reg : Byte} {i : Nat} {s : State} {f : Fault} (h : s.hostRead reg i = .error f) :
    perform (.read reg i) s = .fault f := by
  simp only [perform, h]

/-- A write of `op` to `CMD` issues it. -/
theorem State.hostWrite_cmd (s : State) (v : Word) : s.hostWrite Reg.cmd.number 0 v = issue (v.setWidth 8) s := by
  simp [State.hostWrite, Reg.length]

/-- A write to any other register of the map stores. -/
theorem State.hostWrite_reg (s : State) {r : Reg} {i : Nat} (v : Word) (hr : r ≠ .cmd) (hi : i < r.length s.params) :
    s.hostWrite r.number i v = .next (s.writeReg r i v) := by
  simp [State.hostWrite, hr, hi]

/-- A read of a register of the map. -/
theorem State.hostRead_reg (s : State) {r : Reg} {i : Nat} (hi : i < r.length s.params) :
    s.hostRead r.number i = s.readReg r i := by
  simp [State.hostRead, hi]

/-- An access outside the map or outside the register: a write does nothing and a read answers 0. -/
theorem State.access_outside {s : State} {reg : Byte} {i : Nat}
    (h : ∀ r : Reg, r.number = reg → ¬ i < r.length s.params) (v : Word) :
    s.hostWrite reg i v = .next s ∧ s.hostRead reg i = .ok 0 := by
  rw [State.hostWrite, State.hostRead]
  cases hr : Reg.ofNumber reg with
  | none => exact ⟨rfl, rfl⟩
  | some r => simp [h r (Reg.ofNumber_eq_some.1 hr)]

/-! ## Issuing a command word -/

theorem issue_command {op : Byte} {i : Instr} (h : decode op = .command i) (s : State) : issue op s = exec i s := by
  simp only [issue, h]

theorem issue_reserved {op op' : Byte} (h : decode op = .reserved op') (s : State) :
    issue op s = .next (s.raise (errIllegal op)) := by
  obtain rfl := (decode_eq_reserved h).1
  simp only [issue, h]

/-- The step of a state whose next event issues `op`. -/
theorem step_of_issuedWord {s : State} {op : Byte} (h : s.issuedWord = some op) : step s = issue op s.afterEvent := by
  unfold State.issuedWord at h
  split at h
  · next reg i v rest hs =>
    split at h
    · next hc =>
      obtain ⟨rfl, rfl⟩ := hc
      obtain rfl := Option.some.inj h
      rw [step_cons hs, perform_write, State.hostWrite_cmd, State.afterEvent, hs]
      rfl
    · cases h
  · next reg i rest hs =>
    split at h
    · next hc =>
      obtain ⟨rfl, rfl⟩ := hc
      obtain rfl := Option.some.inj h
      rw [step_cons hs, perform_writeBack, State.hostWrite_cmd, State.afterEvent, hs]
      rfl
    · cases h
  all_goals cases h

/-- A host write, seen from the state before it: a command word issued, a register stored to, or nothing. -/
theorem hostWrite_issues_or_stores (s : State) (reg : Byte) (i : Nat) (v : Word) :
    ((reg = Reg.cmd.number ∧ i = 0) ∧ s.hostWrite reg i v = issue (v.setWidth 8) s) ∨
    (¬ (reg = Reg.cmd.number ∧ i = 0) ∧
      ((∃ r, r ≠ .cmd ∧ i < r.length s.params ∧ s.hostWrite reg i v = .next (s.writeReg r i v)) ∨
        s.hostWrite reg i v = .next s)) := by
  rcases s.hostWrite_cases reg i v with ⟨hr, hi, h⟩ | ⟨r, hr, hn, hi, h⟩ | ⟨hn, h⟩
  · exact .inl ⟨⟨hr, hi⟩, h⟩
  · refine .inr ⟨fun hc => hr (Reg.number_inj (hn.trans hc.1)), .inl ⟨r, hr, hi, h⟩⟩
  · refine .inr ⟨fun hc => hn .cmd hc.1.symm ?_, .inr h⟩
    rw [hc.2]
    exact Nat.one_pos

/-- Everything a step can do when it goes on: wait, run a command word, store in a register, ignore an access, answer a
read, or reset. -/
theorem step_next_cases {s t : State} (h : step s = .next t) :
    (s.inbox = [] ∧ t = s) ∨
    (∃ op, s.issuedWord = some op ∧ issue op s.afterEvent = .next t) ∨
    (s.issuedWord = none ∧ ∃ r i v, r ≠ .cmd ∧ i < Reg.length s.params r ∧ t = s.afterEvent.writeReg r i v) ∨
    (s.issuedWord = none ∧ t = s.afterEvent) ∨
    (s.issuedWord = none ∧ ∃ v, t = s.afterEvent.putReadData v) ∨
    (s.issuedWord = none ∧ (∃ rest, s.inbox = .reset :: rest) ∧ t = s.afterEvent.assertReset) := by
  cases hs : s.inbox with
  | nil =>
    rw [step_nil hs] at h
    exact .inl ⟨rfl, by cases h; rfl⟩
  | cons e rest =>
    refine .inr ?_
    have ha : s.afterEvent = { s with inbox := rest } := by rw [State.afterEvent, hs]; rfl
    rw [step_cons hs, ← ha] at h
    cases e with
    | write reg i v =>
      rw [perform_write] at h
      rcases hostWrite_issues_or_stores s.afterEvent reg i v with ⟨hc, hw⟩ | ⟨hc, ⟨r, hr, hi, hw⟩ | hw⟩ <;> rw [hw] at h
      · exact .inl ⟨_, by simp only [State.issuedWord, hs, if_pos hc], h⟩
      · exact .inr (.inl ⟨by simp only [State.issuedWord, hs, if_neg hc], r, i, v, hr, hi, by cases h; rfl⟩)
      · exact .inr (.inr (.inl ⟨by simp only [State.issuedWord, hs, if_neg hc], by cases h; rfl⟩))
    | writeBack reg i =>
      rw [perform_writeBack] at h
      rcases hostWrite_issues_or_stores s.afterEvent reg i s.afterEvent.readData with
        ⟨hc, hw⟩ | ⟨hc, ⟨r, hr, hi, hw⟩ | hw⟩ <;> rw [hw] at h
      · exact .inl ⟨_, by simp only [State.issuedWord, hs, if_pos hc]; rfl, h⟩
      · exact .inr (.inl ⟨by simp only [State.issuedWord, hs, if_neg hc], r, i, _, hr, hi, by cases h; rfl⟩)
      · exact .inr (.inr (.inl ⟨by simp only [State.issuedWord, hs, if_neg hc], by cases h; rfl⟩))
    | read reg i =>
      refine .inr (.inr (.inr (.inl ⟨by simp only [State.issuedWord, hs], ?_⟩)))
      cases hr : s.afterEvent.hostRead reg i with
      | ok v =>
        rw [perform_read_ok hr] at h
        exact ⟨v, by cases h; rfl⟩
      | error f =>
        rw [perform_read_error hr] at h
        cases h
    | reset =>
      rw [perform_reset] at h
      exact .inr (.inr (.inr (.inr ⟨by simp only [State.issuedWord, hs], ⟨rest, rfl⟩, by cases h; rfl⟩)))

/-- A host write to a register of the map other than `CMD`, as a step. -/
theorem step_write {s : State} {r : Reg} {i : Nat} {v : Word} {rest : List HostEvent}
    (h : s.inbox = .write r.number i v :: rest) (hr : r ≠ .cmd) (hi : i < r.length s.params) :
    step s = .next (({ s with inbox := rest } : State).writeReg r i v) := by
  rw [step_cons h, perform_write, State.hostWrite_reg _ _ hr (by exact hi)]

/-- A host read does not depend on what the host will do nor on what it has read. -/
theorem State.hostRead_congr (s : State) (events : List HostEvent) (v : Word) (reg : Byte) (i : Nat) :
    ({ s with inbox := events, readData := v } : State).hostRead reg i = s.hostRead reg i := by
  simp only [State.hostRead]
  cases Reg.ofNumber reg with
  | none => rfl
  | some r => cases r <;> rfl

/-! ## Runs -/

/-- A run that begins with a step that goes on. -/
theorem runSteps_succ {s t : State} (n : Nat) (h : step s = .next t) : runSteps (n + 1) s = runSteps n t := by
  rw [runSteps, h]

/-- A run in two parts. -/
theorem runSteps_add {s t : State} (m n : Nat) (h : runSteps m s = .next t) : runSteps (m + n) s = runSteps n t := by
  induction m generalizing s with
  | zero =>
    rw [Nat.zero_add]
    rw [runSteps] at h
    cases h
    rfl
  | succ m ih =>
    rw [Nat.add_right_comm, runSteps]
    rw [runSteps] at h
    split at h
    · exact ih h
    · cases h
    · cases h

end Sys2Proof.Machine
end

