-- ==== Sys2Proof/Laws/Exec.lean ====
section
/-! SUPPORT. Everything a command, and so an issued word, can do, in one lemma each; the error records by their codes. -/

namespace Sys2Proof.Machine

/-! ## The error records (60_exceptions.md R180) -/

@[simp] theorem errAddr_code (a : Int) : (errAddr a).code = 1 := rfl
@[simp] theorem errSeq_code (q : Int) : (errSeq q).code = 1 := rfl
@[simp] theorem errTooShort_code (n : Half) : (errTooShort n).code = 2 := rfl
@[simp] theorem errVectorMismatch_code (m : Byte) : (errVectorMismatch m).code = 3 := rfl
@[simp] theorem errNoPacket_code (op : Byte) : (errNoPacket op).code = 4 := rfl
@[simp] theorem errIllegal_code (op : Byte) : (errIllegal op).code = 5 := rfl

theorem ErrRegs.legal_none : (⟨0, 0, 0, 0, 0⟩ : ErrRegs).Legal :=
  .inl rfl

theorem ErrRegs.legal_errAddr {a : Int} (h : ¬ (1 ≤ a ∧ a ≤ 63999)) : (errAddr a).Legal :=
  .inr (.inl ⟨a, rfl, h⟩)

theorem ErrRegs.legal_errSeq {q : Int} (h : ¬ (0 ≤ q ∧ q ≤ 255)) : (errSeq q).Legal :=
  .inr (.inr (.inl ⟨q, rfl, h⟩))

theorem ErrRegs.legal_errTooShort {n : Half} (h : n.toNat < 47) : (errTooShort n).Legal :=
  .inr (.inr (.inr (.inl ⟨n, rfl, h⟩)))

theorem ErrRegs.legal_errVectorMismatch {m : Byte} (h : m = 1 ∨ m = 2 ∨ m = 3) : (errVectorMismatch m).Legal :=
  .inr (.inr (.inr (.inr (.inl ⟨m, rfl, h⟩))))

theorem ErrRegs.legal_errNoPacket {op : Byte} (h : op = 2 ∨ op = 3 ∨ op = 4 ∨ op = 5) : (errNoPacket op).Legal :=
  .inr (.inr (.inr (.inr (.inr (.inl ⟨op, rfl, h⟩)))))

theorem ErrRegs.legal_errIllegal {op : Byte} (h : op = 0 ∨ 7 ≤ op.toNat) : (errIllegal op).Legal :=
  .inr (.inr (.inr (.inr (.inr (.inr ⟨op, rfl, h⟩)))))

/-- Code 0 means that no error is held. -/
theorem ErrRegs.Legal.eq_none {e : ErrRegs} (h : e.Legal) (hc : e.code = 0) : e = ⟨0, 0, 0, 0, 0⟩ := by
  rcases h with rfl | ⟨_, rfl, _⟩ | ⟨_, rfl, _⟩ | ⟨_, rfl, _⟩ | ⟨_, rfl, _⟩ | ⟨_, rfl, _⟩ | ⟨_, rfl, _⟩
  · rfl
  all_goals exact absurd hc (by simp)

/-! ## Commands -/

/-- Everything a command can do when it goes on: an error from a command other than DECODE, which changes the error
registers alone, each command's own effect, and DECODE's error, which clears `DEC_VALID` too. -/
theorem exec_next_cases {i : Instr} {s t : State} (h : exec i s = .next t) :
    (i ≠ .decode ∧ ∃ e : ErrRegs, e.Legal ∧ e.code ≠ 0 ∧ t = s.raise e) ∨
    (i = .new ∧ (1 ≤ s.argAddrInt ∧ s.argAddrInt ≤ 63999) ∧ (0 ≤ s.argSeqInt ∧ s.argSeqInt ≤ 255) ∧
      t = (s.putPacket ⟨s.arg.sid, BitVec.ofInt 16 s.argAddrInt, BitVec.ofInt 8 s.argSeqInt⟩).done) ∨
    (i = .setSyncAddress ∧ s.pktValid = true ∧ (1 ≤ s.argAddrInt ∧ s.argAddrInt ≤ 63999) ∧
      t = (s.putPktAddr (BitVec.ofInt 16 s.argAddrInt)).done) ∨
    (i = .setSequence ∧ s.pktValid = true ∧ (0 ≤ s.argSeqInt ∧ s.argSeqInt ≤ 255) ∧
      t = (s.putPktSeq (BitVec.ofInt 8 s.argSeqInt)).done) ∨
    (i = .advance ∧ s.pktValid = true ∧ t = (s.putPktSeq (s.pkt.seq + 1)).done) ∨
    (i = .encode ∧ s.pktValid = true ∧ t = (s.putFrame (wireFrame s.params s.pkt s.fi)).done) ∨
    (i = .decode ∧ ∃ e : ErrRegs, e.Legal ∧ e.code ≠ 0 ∧ t = s.raiseDecode e) ∨
    (i = .decode ∧ ∃ sid seq, ∃ a : Nat, (1 ≤ a ∧ a ≤ 63999) ∧ t = (s.putDecoded ⟨sid, BitVec.ofNat 16 a, seq⟩).done) := by
  cases i <;> rw [exec] at h
  · rcases execNew_cases s with ⟨e, he, h'⟩ | ⟨he, h'⟩ <;> rw [h'] at h <;> cases h
    · rcases checkPacket_eq_some he with ⟨hr, rfl⟩ | ⟨_, hr, rfl⟩
      · exact .inl ⟨by decide, _, ErrRegs.legal_errAddr hr, by simp, rfl⟩
      · exact .inl ⟨by decide, _, ErrRegs.legal_errSeq hr, by simp, rfl⟩
    · obtain ⟨ha, hq⟩ := checkPacket_eq_none.1 he
      exact .inr (.inl ⟨rfl, ha, hq, rfl⟩)
  · rcases execSetSyncAddress_cases s with ⟨_, h'⟩ | ⟨_, e, he, h'⟩ | ⟨hv, he, h'⟩ <;> rw [h'] at h <;> cases h
    · exact .inl ⟨by decide, _, ErrRegs.legal_errNoPacket (.inl rfl), by simp, rfl⟩
    · obtain ⟨hr, rfl⟩ := checkAddr_eq_some.1 he
      exact .inl ⟨by decide, _, ErrRegs.legal_errAddr hr, by simp, rfl⟩
    · exact .inr (.inr (.inl ⟨rfl, hv, checkAddr_eq_none.1 he, rfl⟩))
  · rcases execSetSequence_cases s with ⟨_, h'⟩ | ⟨_, e, he, h'⟩ | ⟨hv, he, h'⟩ <;> rw [h'] at h <;> cases h
    · exact .inl ⟨by decide, _, ErrRegs.legal_errNoPacket (.inr (.inl rfl)), by simp, rfl⟩
    · obtain ⟨hr, rfl⟩ := checkSeq_eq_some.1 he
      exact .inl ⟨by decide, _, ErrRegs.legal_errSeq hr, by simp, rfl⟩
    · exact .inr (.inr (.inr (.inl ⟨rfl, hv, checkSeq_eq_none.1 he, rfl⟩)))
  · rcases execAdvance_cases s with ⟨_, h'⟩ | ⟨hv, h'⟩ <;> rw [h'] at h <;> cases h
    · exact .inl ⟨by decide, _, ErrRegs.legal_errNoPacket (.inr (.inr (.inl rfl))), by simp, rfl⟩
    · exact .inr (.inr (.inr (.inr (.inl ⟨rfl, hv, rfl⟩))))
  · rcases execEncode_cases s with ⟨_, h'⟩ | ⟨hv, h'⟩ <;> rw [h'] at h <;> cases h
    · exact .inl ⟨by decide, _, ErrRegs.legal_errNoPacket (.inr (.inr (.inr rfl))), by simp, rfl⟩
    · exact .inr (.inr (.inr (.inr (.inr (.inl ⟨rfl, hv, rfl⟩)))))
  · refine .inr (.inr (.inr (.inr (.inr (.inr ?_)))))
    rcases execDecode_cases s with ⟨hl, h'⟩ | ⟨_, _, _, _, _, h'⟩ | ⟨_, _, hm, h'⟩ | ⟨_, a, ha, h'⟩ |
      ⟨_, sid, seq, a, ha, h'⟩ <;> rw [h'] at h <;> cases h
    · exact .inl ⟨rfl, _, ErrRegs.legal_errTooShort hl, by simp, rfl⟩
    · exact .inl ⟨rfl, _, ErrRegs.legal_errVectorMismatch hm, by simp, rfl⟩
    · exact .inl ⟨rfl, _, ErrRegs.legal_errAddr (by omega), by simp, rfl⟩
    · exact .inr ⟨rfl, sid, seq, a, ha, rfl⟩

/-- Everything issuing a command word can do when it goes on: the command of that word, or `ILLEGAL_COMMAND`. -/
theorem issue_next_cases {op : Byte} {s t : State} (h : issue op s = .next t) :
    (∃ i, op = encode i ∧ exec i s = .next t) ∨ ((op = 0 ∨ 7 ≤ op.toNat) ∧ t = s.raise (errIllegal op)) := by
  cases hd : decode op with
  | command i =>
    rw [issue_command hd] at h
    exact .inl ⟨i, decode_eq_command.1 hd, h⟩
  | reserved o =>
    rw [issue_reserved hd] at h
    cases h
    exact .inr ⟨(decode_eq_reserved hd).2, rfl⟩

end Sys2Proof.Machine
end

