-- ==== Sys2Proof/Laws/PerInstr.lean ====
section
/-! SUPPORT. Statements made instruction by instruction. -/

namespace Sys2Proof.Laws

/-- The encoding of a command decodes to it, and its word is no reserved one (30_encoding.md R83, R84). -/
def RoundTrip.Statement (i : Instr) : Prop :=
  decode (encode i) = .command i ∧ commandWordWf (encode i) = true ∧ i.wf = true

theorem RoundTrip.new : RoundTrip.Statement .new := by
  unfold RoundTrip.Statement
  decide

theorem RoundTrip.setSyncAddress : RoundTrip.Statement .setSyncAddress := by
  unfold RoundTrip.Statement
  decide

theorem RoundTrip.setSequence : RoundTrip.Statement .setSequence := by
  unfold RoundTrip.Statement
  decide

theorem RoundTrip.advance : RoundTrip.Statement .advance := by
  unfold RoundTrip.Statement
  decide

theorem RoundTrip.encode : RoundTrip.Statement .encode := by
  unfold RoundTrip.Statement
  decide

theorem RoundTrip.decode : RoundTrip.Statement .decode := by
  unfold RoundTrip.Statement
  decide

end Sys2Proof.Laws
end

