-- ==== Sys2Proof/Tests/Slice0.lean ====
section
/-! SUPPORT. Tests: what the checks refuse, command words written out from the spec's opcode map, the spec's vectors
(95_test_vectors.md), one step each, and for every statement with hypotheses a state that meets them. -/

namespace Sys2Proof.Tests

open Sys2Proof Sys2Proof.Machine

/-! ## States to test on -/

/-- `S1`, sixteen bytes 0x01 (95_test_vectors.md, Notation). -/
def sid1 : Sid := Vector.replicate 16 0x01

/-- `S2`, the bytes 0x00 to 0x0F (95_test_vectors.md, Notation). -/
def sid2 : Sid := #v[0x00, 0x01, 0x02, 0x03, 0x04, 0x05, 0x06, 0x07, 0x08, 0x09, 0x0A, 0x0B, 0x0C, 0x0D, 0x0E, 0x0F]

/-- Straight after reset, with the arguments `(S1, a, q)` written. -/
def fresh (a q : Word) : State :=
  { State.reset with arg := ⟨sid1, a, q⟩, written := ⟨Vector.replicate 16 true, true, true, false⟩ }

/-- A block that holds the packet `(S1, addr, seq)`, with the arguments `(S1, a, q)` written. -/
def held (addr : Half) (seq : Byte) (a q : Word) : State :=
  { fresh a q with pktValid := true, pkt := ⟨sid1, addr, seq⟩ }

/-- The same block with the multiplier 256. -/
def by256 (s : State) : State :=
  { s with params := { s.params with addrDecodeMult := .by256 } }

/-- The frame of V-E1, as 95_test_vectors.md prints it. -/
def frameE1 : List Byte :=
  [0x00, 0x10, 0x00, 0x00, 0x41, 0x53, 0x43, 0x2D, 0x45, 0x31, 0x2E, 0x31, 0x37, 0x00, 0x00, 0x00] ++
  [0x70, 0x21, 0x00, 0x00, 0x00, 0x08, 0x01, 0x01, 0x01, 0x01, 0x01, 0x01, 0x01, 0x01, 0x01, 0x01] ++
  [0x01, 0x01, 0x01, 0x01, 0x01, 0x01, 0x70, 0x0B, 0x00, 0x00, 0x00, 0x01, 0x00, 0x00, 0x01, 0x00] ++ [0x00]

/-- The frame of V-E2. -/
def frameE2 : List Byte :=
  [0x00, 0x10, 0x00, 0x00, 0x41, 0x53, 0x43, 0x2D, 0x45, 0x31, 0x2E, 0x31, 0x37, 0x00, 0x00, 0x00] ++
  [0x70, 0x21, 0x00, 0x00, 0x00, 0x08, 0x00, 0x01, 0x02, 0x03, 0x04, 0x05, 0x06, 0x07, 0x08, 0x09] ++
  [0x0A, 0x0B, 0x0C, 0x0D, 0x0E, 0x0F, 0x70, 0x0B, 0x00, 0x00, 0x00, 0x01, 0xFF, 0xF9, 0xFF, 0x00] ++ [0x00]

/-- A buffer that lists bytes from offset 0 on. -/
def buffer (bytes : List Byte) : Memory :=
  (List.range bytes.length).zip bytes

/-- A block whose receive buffer holds V-E1 with some bytes changed, and whose `RX_LEN` is `n`
(95_test_vectors.md, section 2.3). -/
def received (n : Half) (changes : List (Nat × Byte)) : State :=
  { State.reset with rxLen := n, rx := buffer (changes.foldl (fun f c => f.set c.1 c.2) frameE1) }

/-- The bytes of a buffer, in order. -/
def bytesOf (m : Memory) : List Byte :=
  m.map Prod.snd

/-- A state about to see one host access. -/
def facing (s : State) (e : HostEvent) : State :=
  { s with inbox := [e] }

/-! ## What is ill formed is refused -/

theorem test_wf_reserved_command_words :
    commandWordWf 0x00 = false ∧ commandWordWf 0x07 = false ∧ commandWordWf 0xFF = false := by decide

theorem test_wf_length_of_13_bits : flagsLengthWf 4095 = true ∧ flagsLengthWf 4096 = false := by decide

/-- A reserved register, an index outside a register, a write to a read-only register, and `RX_BUF[P_RX_CAP]`. -/
theorem test_wf_accesses :
    HostEvent.wf Params.default (.read 0x07 0) = false ∧ HostEvent.wf Params.default (.read 0x41 49) = false ∧
    HostEvent.wf Params.default (.write 0x01 0 0) = false ∧ HostEvent.wf Params.default (.write 0x51 64 0) = false ∧
    HostEvent.wf Params.default (.writeBack 0x41 0) = false ∧ HostEvent.wf Params.default (.write 0x51 63 0) = true := by
  decide

/-- An array written whole, an index past its end, a byte of 9 bits, a session identifier of 15 bytes, numbers that do not
fit 32 bits, and a scalar reached by index. -/
theorem test_wf_script_lines :
    HostLine.wf Params.default (.wr .argSid 1) = false ∧ HostLine.wf Params.default (.wrAt .argSid 16 1) = false ∧
    HostLine.wf Params.default (.wrAt .argSid 0 256) = false ∧
    HostLine.wf Params.default (.newWith (List.replicate 15 1) 1 0) = false ∧
    HostLine.wf Params.default (.setaddrWith (2 ^ 32)) = false ∧ HostLine.wf Params.default (.setseqWith (-(2 ^ 31) - 1)) = false ∧
    HostLine.wf Params.default (.rdAt .status 0) = false ∧ HostLine.wf Params.default (.fi 0 (2 ^ 32) 0) = false := by
  decide

theorem test_wf_wrb_too_long : HostLine.wf Params.default (.wrb .argSid (List.replicate 17 1)) = false := by decide

theorem test_wf_loopback_needs_room :
    HostLine.wf { Params.default with rxCap := ⟨48, by decide⟩ } .loopback = false := by decide

/-! ## Decoding (30_encoding.md R83, R84, R86), the words written out bit by bit -/

theorem test_decode_new : Sys2Proof.decode 0b00000001 = .command .new := by decide
theorem test_decode_setSyncAddress : Sys2Proof.decode 0b00000010 = .command .setSyncAddress := by decide
theorem test_decode_setSequence : Sys2Proof.decode 0b00000011 = .command .setSequence := by decide
theorem test_decode_advance : Sys2Proof.decode 0b00000100 = .command .advance := by decide
theorem test_decode_encode : Sys2Proof.decode 0b00000101 = .command .encode := by decide
theorem test_decode_decode : Sys2Proof.decode 0b00000110 = .command .decode := by decide
theorem test_decode_reserved :
    Sys2Proof.decode 0b00000000 = .reserved 0 ∧ Sys2Proof.decode 0b00000111 = .reserved 7 ∧
    Sys2Proof.decode 0b10000001 = .reserved 0x81 := by decide

/-- No two rows of the opcode map share a word. -/
theorem test_opcode_rows_disjoint : opcodeTable.Pairwise fun r r' => r.pattern &&& r'.mask ≠ r'.pattern := by decide

/-! ## The field commands (95_test_vectors.md, section 2.1) -/

/-- V-N12: NEW over an existing packet. -/
theorem test_new_replaces_the_packet :
    (Outcome.holds (exec .new { held 5 9 7 3 with arg := ⟨sid2, 7, 3⟩ }) fun t =>
      t.pkt == ⟨sid2, 7, 3⟩ && t.pktValid && t.err == ⟨0, 0, 0, 0, 0⟩) = true := by decide

/-- V-N5, V-N6, V-N11, V-N7: a negative address, one that 16 bits would cut to 1, both out of range, a negative sequence. -/
theorem test_new_checks :
    (Outcome.holds (exec .new (fresh 0xFFFFFFFF 0)) fun t => t.err == ⟨1, 1, 0xFFFFFFFF, 1, 63999⟩ && !t.pktValid) = true ∧
    (Outcome.holds (exec .new (fresh 0x00010001 0)) fun t => t.err == ⟨1, 1, 0x00010001, 1, 63999⟩) = true ∧
    (Outcome.holds (exec .new (fresh 0 256)) fun t => t.err == ⟨1, 1, 0, 1, 63999⟩) = true ∧
    (Outcome.holds (exec .new (fresh 1 0xFFFFFFFF)) fun t => t.err == ⟨1, 2, 0xFFFFFFFF, 0, 255⟩) = true := by decide

/-- V-S1. -/
theorem test_setSyncAddress_no_packet :
    (Outcome.holds (exec .setSyncAddress (fresh 5 0)) fun t => t.err == ⟨4, 0, 2, 0, 0⟩ && !t.pktValid) = true := by decide

/-- V-S2, V-S3: the highest address, and one more. -/
theorem test_setSyncAddress_bounds :
    (Outcome.holds (exec .setSyncAddress (held 1 0 63999 0)) fun t =>
      t.pkt == ⟨sid1, 63999, 0⟩ && t.err == ⟨0, 0, 0, 0, 0⟩) = true ∧
    (Outcome.holds (exec .setSyncAddress (held 1 0 64000 0)) fun t =>
      t.pkt == ⟨sid1, 1, 0⟩ && t.err == ⟨1, 1, 64000, 1, 63999⟩) = true := by decide

/-- V-S4. -/
theorem test_setSequence_no_packet :
    (Outcome.holds (exec .setSequence (fresh 0 5)) fun t => t.err == ⟨4, 0, 3, 0, 0⟩) = true := by decide

/-- V-S5, V-S6. -/
theorem test_setSequence_bounds :
    (Outcome.holds (exec .setSequence (held 1 0 0 250)) fun t => t.pkt == ⟨sid1, 1, 250⟩) = true ∧
    (Outcome.holds (exec .setSequence (held 1 7 0 256)) fun t =>
      t.pkt == ⟨sid1, 1, 7⟩ && t.err == ⟨1, 2, 256, 0, 255⟩) = true := by decide

/-- V-A1, V-A3. -/
theorem test_advance_wraps :
    (Outcome.holds (exec .advance (held 1 255 0 0)) fun t => t.pkt == ⟨sid1, 1, 0⟩) = true ∧
    (Outcome.holds (exec .advance (held 1 254 0 0)) fun t => t.pkt == ⟨sid1, 1, 255⟩) = true := by decide

/-- V-A4. -/
theorem test_advance_no_packet :
    (Outcome.holds (exec .advance (fresh 0 0)) fun t => t.err == ⟨4, 0, 4, 0, 0⟩) = true := by decide

/-! ## ENCODE (95_test_vectors.md, section 2.2) -/

set_option maxRecDepth 4000 in
/-- V-E2: every byte of the frame. -/
theorem test_encode_frame :
    (Outcome.holds (exec .encode { held 63999 255 0 0 with pkt := ⟨sid2, 63999, 255⟩ }) fun t =>
      bytesOf t.tx == frameE2 && t.txLen == 49) = true := by decide

set_option maxRecDepth 4000 in
/-- V-F4b, V-F5 and V-F8 together: the four switches, `10 + 250 = 4` and `63999 + 0x0601 = 0` on the wire. -/
theorem test_encode_faults :
    (Outcome.holds (exec .encode { held 63999 250 0 0 with fi := ⟨0x0F, 10, 0x0601⟩ }) fun t =>
      bytesOf t.tx == ((((((frameE1.set 1 0xEF).set 4 0x00).set 21 0xF7).set 43 0xFE).set 44 4).set 45 0).set 46 0 &&
      t.pkt == ⟨sid1, 63999, 250⟩) = true := by decide

/-! ## DECODE (95_test_vectors.md, section 2.3) -/

set_option maxRecDepth 4000 in
/-- V-D14 with both multipliers. -/
theorem test_decode_multipliers :
    (Outcome.holds (exec .decode (received 49 [(45, 0xFA), (46, 0xF9)])) fun t =>
      t.dec == ⟨sid1, 63999, 0⟩ && t.decValid && t.err == ⟨0, 0, 0, 0, 0⟩) = true ∧
    (Outcome.holds (exec .decode (by256 (received 49 [(45, 0xFA), (46, 0xF9)]))) fun t =>
      t.err == ⟨1, 1, 64249, 1, 63999⟩ && !t.decValid) = true := by decide

set_option maxRecDepth 4000 in
/-- V-D8, V-D7, V-D5 and V-D17: the length first, both vectors, one bit of one, and bytes that are not checked. -/
theorem test_decode_checks :
    (Outcome.holds (exec .decode (received 46 [(18, 0x80)])) fun t => t.err == ⟨2, 0, 46, 0, 0⟩) = true ∧
    (Outcome.holds (exec .decode (received 49 [(21, 0x09), (40, 0x10)])) fun t => t.err == ⟨3, 0, 3, 0, 0⟩) = true ∧
    (Outcome.holds (exec .decode (received 49 [(18, 0x80)])) fun t => t.err == ⟨3, 0, 1, 0, 0⟩) = true ∧
    (Outcome.holds (exec .decode (received 1000 [(0, 0x55), (16, 0), (17, 0), (47, 0xAA)])) fun t =>
      t.dec == ⟨sid1, 1, 0⟩ && t.decValid) = true := by decide

/-! ## The port (95_test_vectors.md, section 2.4) -/

/-- V-X3, V-X4. -/
theorem test_reserved_opcodes :
    (Outcome.holds (step (facing State.reset (.write 0x00 0 0x07))) fun t => t.err == ⟨5, 0, 7, 0, 0⟩) = true ∧
    (Outcome.holds (step (facing State.reset (.write 0x00 0 0xFF))) fun t => t.err == ⟨5, 0, 255, 0, 0⟩) = true := by
  decide

/-- V-X7, V-X8, V-X9: a reserved register, an index outside, `CMD`. -/
theorem test_reads_of_nothing :
    (Outcome.holds (step (facing State.reset (.read 0xFF 0))) fun t => t.readData == 0) = true ∧
    (Outcome.holds (step (facing State.reset (.read 0x41 49))) fun t => t.readData == 0) = true ∧
    (Outcome.holds (step (facing State.reset (.read 0x00 0))) fun t => t.readData == 0) = true := by decide

/-- V-X6: a write to the read-only `PKT_ADDR`. -/
theorem test_read_only_write :
    (Outcome.holds (step (facing (held 1 0 0 0) (.write 0x21 0 5))) fun t => t.pkt == ⟨sid1, 1, 0⟩) = true := by decide

/-- V-F4c: the reserved bits of `FI_CTRL` ignore a write (10_state.md R35). -/
theorem test_fiCtrl_reserved_bits :
    (Outcome.holds (step (facing State.reset (.write 0x30 0 0xF5))) fun t => t.fi.ctrl == 0x05) = true := by decide

/-- V-X10: reading `PKT_ADDR` straight after reset is an unsafe step (10_state.md R48, log entry 2). -/
theorem test_unwritten_read_is_unsafe :
    readsUnwritten (.read 0x21 0) State.reset = true ∧ readsUnwritten (.read 0x01 0) State.reset = false ∧
    readsUnwritten (.write 0x00 0 0x01) State.reset = true ∧ readsUnwritten (.write 0x00 0 0x02) State.reset = false := by
  decide

/-- V-X11: DECODE of a buffer that was never written is the model fault at offset 18. -/
theorem test_decode_unwritten : exec .decode { State.reset with rxLen := 49 } = .fault (.unwrittenRx 18) := by rfl

/-- Every command, placed by `withFetchWord` straight after reset, runs to a next state. -/
theorem test_first_step_runs :
    ([0x01, 0x02, 0x03, 0x04, 0x05, 0x06].all fun w =>
      Outcome.holds (step (State.reset.withFetchWord 8 w)) fun _ => true) = true := by
  rfl

/-! ## Host scripts (30_encoding.md R88) -/

set_option maxRecDepth 8000 in
/-- Lines of P1 to P4 as text. -/
theorem test_script_text :
    readLine "wr ARG_ADDR, 64000 ; too high".toList = .line (.wr .argAddr 64000) ∧
    readLine "wrb ARG_SID, 01 x16".toList = .line (.wrb .argSid (List.replicate 16 1)) ∧
    readLine "fi 0x04, 0, -1".toList = .line (.fi 4 0 (-1)) ∧
    readLine "new S2, 4660, 254".toList = .line (.newWith ((List.range 16).map Int.ofNat) 4660 254) ∧
    readLine "rd RX_BUF[48]".toList = .line (.rdAt .rxBuf 48) ∧ readLine "; only a comment".toList = .blank ∧
    readLine "advance 1".toList = .illFormed ∧ readLine "wr NO_SUCH, 1".toList = .illFormed := by
  decide

/-- The access encodings 95_test_vectors.md gives for lines of P2 and P4. -/
theorem test_script_expansion :
    (HostLine.setseqWith 250).expand = [.write 0x12 0 0x000000FA, .write 0x00 0 0x03] ∧
    (HostLine.fi 0 0 (-1)).expand = [.write 0x30 0 0, .write 0x31 0 0, .write 0x32 0 0xFFFFFFFF] ∧
    (HostLine.newDefault (List.replicate 16 1) 63999).expand.drop 14 =
      [.write 0x10 14 0x01, .write 0x10 15 0x01, .write 0x11 0 0x0000F9FF, .write 0x12 0 0, .write 0x00 0 0x01] ∧
    HostLine.loopback.expand.length = 99 := by
  decide

/-! ## Witnesses: for each statement with hypotheses, states and operands that meet them together, clause by clause at the
ends of its ranges -/

/-- `held` with a frame in the transmit buffer. -/
def encoded (addr : Half) (seq : Byte) : State :=
  { held addr seq 0 0 with tx := buffer frameE1, txLen := 49 }

theorem held_inv {addr : Half} (h : 1 ≤ addr.toNat ∧ addr.toNat ≤ 63999) (seq : Byte) (a q : Word) :
    (held addr seq a q).Inv where
  pkt := fun _ => h
  dec := fun h => Bool.noConfusion h
  decWritten := fun h => Bool.noConfusion h
  err := .inl rfl
  fiCtrl := by
    show (0 : Byte) &&& 0xF0 = 0
    decide
  txWhole := .inl ⟨rfl, rfl⟩
  txWf := Memory.wf_nil _
  rxWf := Memory.wf_nil _

/-- The reserved opcodes at the ends of their ranges, 0, 7 and 255, the last from a value of more than 8 bits, and the others
at theirs, 1 and 6. -/
theorem witness_ReservedOpcodesRaiseIllegalCommand :
    ((0 : Byte) = 0 ∨ 7 ≤ (0 : Byte).toNat) ∧ ((7 : Byte) = 0 ∨ 7 ≤ (7 : Byte).toNat) ∧
    ((255 : Byte) = 0 ∨ 7 ≤ (255 : Byte).toNat) ∧ (0x1FF : Word).setWidth 8 = (255 : Byte) ∧
    (facing State.reset (.write 0x00 0 0x1FF)).inbox = [.write 0x00 0 0x1FF] ∧
    ¬ ((1 : Byte) = 0 ∨ 7 ≤ (1 : Byte).toNat) ∧ ¬ ((6 : Byte) = 0 ∨ 7 ≤ (6 : Byte).toNat) := by decide

theorem witness_DecodeAndEncodeAgree : Sys2Proof.decode 0x06 = .command .decode := by decide

/-- Its three clauses: a word issued by a write and by `writeBack`, no event, a table word. -/
theorem witness_StepRunsTheDecodedCommand :
    (facing State.reset (.write 0x00 0 0x104)).issuedWord = some 0x04 ∧
    ({ facing State.reset (.writeBack 0x00 0) with readData := 6 } : State).issuedWord = some 0x06 ∧
    Sys2Proof.decode 0x04 = .command .advance ∧ State.reset.inbox = [] ∧ decodeTableWord 8 0x06 = some .decode := by
  decide

/-- The three cases of NEW, at both ends of both ranges. -/
theorem witness_NewConstructsThePacket :
    ([(0 : Word), 64000, 0xFFFFFFFF].all fun a =>
      !decide (1 ≤ (fresh a 0).arg.addr.toInt ∧ (fresh a 0).arg.addr.toInt ≤ 63999)) = true ∧
    ([(1 : Word), 63999].all fun a =>
      decide (1 ≤ (fresh a 0).arg.addr.toInt ∧ (fresh a 0).arg.addr.toInt ≤ 63999)) = true ∧
    ([(256 : Word), 0xFFFFFFFF].all fun q =>
      !decide (0 ≤ (fresh 1 q).arg.seq.toInt ∧ (fresh 1 q).arg.seq.toInt ≤ 255)) = true ∧
    ([(0 : Word), 255].all fun q =>
      decide (0 ≤ (fresh 1 q).arg.seq.toInt ∧ (fresh 1 q).arg.seq.toInt ≤ 255)) = true := by decide

/-- The three cases of SET_SYNC_ADDRESS. -/
theorem witness_SetSyncAddressMutatesTheAddress :
    (fresh 5 0).pktValid = false ∧
    ([(0 : Word), 64000].all fun a => (held 1 0 a 0).pktValid &&
      !decide (1 ≤ (held 1 0 a 0).arg.addr.toInt ∧ (held 1 0 a 0).arg.addr.toInt ≤ 63999)) = true ∧
    ([(1 : Word), 63999].all fun a => (held 1 0 a 0).pktValid &&
      decide (1 ≤ (held 1 0 a 0).arg.addr.toInt ∧ (held 1 0 a 0).arg.addr.toInt ≤ 63999)) = true := by decide

/-- The three cases of SET_SEQUENCE. -/
theorem witness_SetSequenceMutatesTheSequence :
    (fresh 0 5).pktValid = false ∧
    ([(256 : Word), 0xFFFFFFFF].all fun q => (held 1 0 0 q).pktValid &&
      !decide (0 ≤ (held 1 0 0 q).arg.seq.toInt ∧ (held 1 0 0 q).arg.seq.toInt ≤ 255)) = true ∧
    ([(0 : Word), 255].all fun q => (held 1 0 0 q).pktValid &&
      decide (0 ≤ (held 1 0 0 q).arg.seq.toInt ∧ (held 1 0 0 q).arg.seq.toInt ≤ 255)) = true := by decide

theorem witness_AdvanceIncrementsTheSequence :
    (fresh 0 0).pktValid = false ∧ (held 1 255 0 0).pktValid = true := by decide

theorem witness_AdvancesCountModulo256 : (held 1 255 0 0).pktValid = true := by decide

/-- No packet; and NEW and DECODE answering a next state. -/
theorem witness_NoPacketIsRaisedByTheFourCommands :
    State.reset.pktValid = false ∧ (∃ t, exec .new (fresh 0 0) = .next t) ∧ ∃ t, exec .decode State.reset = .next t :=
  ⟨rfl, ⟨_, rfl⟩, ⟨_, rfl⟩⟩

/-- Each of the four commands goes on with a packet; NEW also to an error. -/
theorem witness_FieldCommandsFrame :
    (∀ i ∈ [Instr.new, .setSyncAddress, .setSequence, .advance], Outcome.holds (exec i (held 1 0 2 3)) fun t =>
      t.err.code == 0) ∧
    Outcome.holds (exec .new (held 1 0 64000 3)) (fun t => t.err.code != 0) = true := by decide

theorem witness_EncodeWritesTheConformantFrame :
    (held 1 0 0 0).pktValid = true ∧ (held 1 0 0 0).fi.ctrl &&& 0x0F = 0 ∧ (held 1 0 0 0).fi.seqOffset = 0 ∧
    (held 1 0 0 0).fi.addrOffset = 0 := by decide

theorem witness_EncodeAppliesTheFaultConfiguration : (held 1 0 0 0).pktValid = true := by decide

/-- ENCODE goes on with a packet and without one. -/
theorem witness_EncodeFrame :
    (∃ t, exec .encode (held 1 0 0 0) = .next t) ∧ (held 1 0 0 0).pktValid = true ∧
    (∃ t, exec .encode (fresh 0 0) = .next t) ∧ (fresh 0 0).pktValid = false :=
  ⟨⟨_, rfl⟩, rfl, ⟨_, rfl⟩, rfl⟩

/-- The six effects in the order ENCODE applies them, and in the opposite one. -/
theorem witness_FaultEffectsCommute (effects : List (List Byte → List Byte)) :
    effects.Perm effects ∧ effects.reverse.Perm effects :=
  ⟨.refl _, effects.reverse_perm⟩

theorem witness_DecodeRejectsShortBuffers : (received 46 []).rxLen.toNat < 47 := by decide

set_option maxRecDepth 4000 in
/-- V-D7: both vectors wrong. -/
theorem witness_DecodeRejectsWrongVectors :
    47 ≤ (received 47 [(21, 0x09), (40, 0x10)]).rxLen.toNat ∧
    (∀ k (h : k < 4), (received 47 [(21, 0x09), (40, 0x10)]).rx.read (18 + k) =
      some (#v[(0x00 : Byte), 0x00, 0x00, 0x09])[k]) ∧
    (∀ k (h : k < 4), (received 47 [(21, 0x09), (40, 0x10)]).rx.read (40 + k) =
      some (#v[(0x10 : Byte), 0x00, 0x00, 0x01])[k]) ∧
    ¬ ([(0x00 : Byte), 0x00, 0x00, 0x09] = beBytes 4 Params.default.vectorRootExtended.toNat ∧
      [(0x10 : Byte), 0x00, 0x00, 0x01] = beBytes 4 Params.default.vectorSync.toNat) := by decide

set_option maxRecDepth 4000 in
/-- V-D2; and the ends of both clauses, with 255: 0, 1, 63999 and 64000. -/
theorem witness_DecodeExtractsThePacket :
    47 ≤ (received 47 []).rxLen.toNat ∧
    (∀ k, k < 4 → (received 47 []).rx.read (18 + k) = (beBytes 4 (received 47 []).params.vectorRootExtended.toNat)[k]?) ∧
    (∀ k (h : k < 16), (received 47 []).rx.read (22 + k) = some sid1[k]) ∧
    (∀ k, k < 4 → (received 47 []).rx.read (40 + k) = (beBytes 4 (received 47 []).params.vectorSync.toNat)[k]?) ∧
    (received 47 []).rx.read 44 = some 0 ∧ (received 47 []).rx.read 45 = some 0 ∧ (received 47 []).rx.read 46 = some 1 ∧
    ([((0x00 : Byte), (0x01 : Byte)), (0xFA, 0xF9)].all fun w =>
      decide (1 ≤ decodedAddr .by255 w.1 w.2 ∧ decodedAddr .by255 w.1 w.2 ≤ 63999)) = true ∧
    ([((0x00 : Byte), (0x00 : Byte)), (0xFA, 0xFA)].all fun w =>
      !decide (1 ≤ decodedAddr .by255 w.1 w.2 ∧ decodedAddr .by255 w.1 w.2 ≤ 63999)) = true := by decide

set_option maxRecDepth 4000 in
/-- DECODE goes on to a packet and to an error. -/
theorem witness_DecodeIsAllOrNothing :
    Outcome.holds (exec .decode (received 49 [])) (fun t => t.err.code == 0) = true ∧
    Outcome.holds (exec .decode (received 46 [])) (fun t => t.err.code != 0) = true := by decide

theorem witness_DecodeFrame : ∃ t, exec .decode State.reset = .next t :=
  ⟨_, rfl⟩

set_option maxRecDepth 4000 in
/-- Two buffers that differ at offsets 17, 38, 39 and 47. -/
theorem witness_DecodeReadsItsFieldsOnly :
    47 ≤ (received 47 []).rxLen.toNat ∧ 47 ≤ (1000 : Half).toNat ∧
    ([17, 38, 39, 47].all fun x => (received 0 [(17, 1), (38, 1), (39, 1), (47, 1)]).rx.read x != (received 47 []).rx.read x) =
      true ∧
    ((List.range 47).all fun x => !decide ((18 ≤ x ∧ x ≤ 37) ∨ (40 ≤ x ∧ x ≤ 46)) ||
      (received 0 [(17, 1), (38, 1), (39, 1), (47, 1)]).rx.read x == (received 47 []).rx.read x) = true := by
  decide

/-- The ends of the ranges: 1, 255, 256 and 63999, and 0 and 254. -/
theorem witness_DecodedAddressArithmetic255 :
    ([(1 : Half), 255, 256, 63999].all fun a => decide (1 ≤ a.toNat ∧ a.toNat ≤ 63999)) = true ∧ (1 : Half).toNat ≤ 255 ∧ (255 : Half).toNat ≤ 255 ∧
    256 ≤ (256 : Half).toNat ∧ 256 ≤ (63999 : Half).toNat ∧ (0 : Nat) ≤ 254 ∧ 254 ≤ 254 := by decide

/-- For every fault configuration: ENCODE with it, and a receive buffer that holds what it wrote. -/
theorem encoded_and_received (f : FaultConfig) (m : AddrMult) :
    ∃ s t d : State, s.fi = f ∧ s.params.addrDecodeMult = m ∧ s.pktValid = true ∧ s.pkt.addr = 1 ∧
      s.pkt.InRange ∧
      exec .encode s = .next t ∧ d.params = s.params ∧ 47 ≤ d.rxLen.toNat ∧
      ∀ x, 18 ≤ x → x ≤ 46 → d.rx.read x = t.tx.read x := by
  let s : State := { held 1 0 0 0 with fi := f, params := { Params.default with addrDecodeMult := m } }
  refine ⟨s, _, { s with rx := s.tx.writeBytes 0 (wireFrame s.params s.pkt s.fi), rxLen := 47 }, rfl, rfl, rfl, rfl, ?_, rfl,
    rfl, ?_, fun _ _ _ => rfl⟩
  · show 1 ≤ (1 : Half).toNat ∧ (1 : Half).toNat ≤ 63999
    decide
  · show 47 ≤ (47 : Half).toNat
    decide

/-- Both clauses: the envelope switch on, and the synchronization switch on. -/
theorem witness_VectorCorruptionFailsDecode :
    (∃ s t d : State, s.pktValid = true ∧ exec .encode s = .next t ∧ d.params = s.params ∧ 47 ≤ d.rxLen.toNat ∧
      (∀ x, 18 ≤ x → x ≤ 46 → d.rx.read x = t.tx.read x) ∧ s.fi.ctrl.getLsbD 2 = true) ∧
    ∃ s t d : State, s.pktValid = true ∧ exec .encode s = .next t ∧ d.params = s.params ∧ 47 ≤ d.rxLen.toNat ∧
      (∀ x, 18 ≤ x → x ≤ 46 → d.rx.read x = t.tx.read x) ∧ s.fi.ctrl.getLsbD 3 = true := by
  obtain ⟨s, t, d, hf, -, hv, -, -, he, hp, hl, hr⟩ := encoded_and_received ⟨4, 0, 0⟩ .by255
  obtain ⟨s', t', d', hf', -, hv', -, -, he', hp', hl', hr'⟩ := encoded_and_received ⟨8, 0, 0⟩ .by255
  exact ⟨⟨s, t, d, hv, he, hp, hl, hr, by rw [hf]; decide⟩, s', t', d', hv', he', hp', hl', hr', by rw [hf']; decide⟩

/-- One fault configuration for each clause (`encoded_and_received` gives the states for it): the switches 1, 2, 4 and 8, a
sequence offset, and for the packet address 1 an address offset that stays in range (63998) and one that leaves it (63999). -/
theorem witness_FaultsAsDecodeSeesThem :
    (∀ f ∈ [FaultConfig.mk 1 0 0, ⟨2, 0, 0⟩, ⟨4, 0, 0⟩, ⟨8, 0, 0⟩, ⟨0, 255, 0⟩, ⟨0, 0, 63998⟩, ⟨0, 0, 63999⟩],
      ∃ s t d : State, s.fi = f ∧ s.pktValid = true ∧ s.pkt.addr = 1 ∧ s.pkt.InRange ∧
        s.params.addrDecodeMult = .by256 ∧ exec .encode s = .next t ∧ d.params = s.params ∧ 47 ≤ d.rxLen.toNat ∧
        ∀ x, 18 ≤ x → x ≤ 46 → d.rx.read x = t.tx.read x) ∧
    (1 ≤ ((1 : Half) + 63998).toNat ∧ ((1 : Half) + 63998).toNat ≤ 63999) ∧
    ¬ (1 ≤ ((1 : Half) + 63999).toNat ∧ ((1 : Half) + 63999).toNat ≤ 63999) := by
  refine ⟨fun f _ => ?_, by decide, by decide⟩
  obtain ⟨s, t, d, hf, hm, hv, ha, hi, he, hp, hl, hr⟩ := encoded_and_received f .by256
  exact ⟨s, t, d, hf, hv, ha, hi, hm, he, hp, hl, hr⟩

set_option maxRecDepth 4000 in
theorem witness_LoopbackCopiesTheFrame :
    ((List.range 49).all fun x => ((encoded 1 0).tx.read x).isSome) = true := by decide

/-- The whole packet range's ends, and the three lengths. -/
theorem witness_EncodeLoopbackDecodeRoundTrip :
    (held 1 0 0 0).pktValid = true ∧ (held 1 0 0 0).pkt.InRange ∧ (held 63999 0 0 0).pktValid = true ∧
    (held 63999 0 0 0).pkt.InRange ∧
    (held 1 0 0 0).fi.ctrl &&& 0x0F = 0 ∧ (held 1 0 0 0).fi.seqOffset = 0 ∧ (held 1 0 0 0).fi.addrOffset = 0 ∧
    ((47 : Int) = 47 ∨ (47 : Int) = 48 ∨ (47 : Int) = 49) := by
  unfold Packet.InRange
  decide

/-- A state with the invariant that takes a step. -/
theorem witness_StepKeepsTheInvariant :
    (facing (held 1 0 0 0) (.write 0x00 0 0x04)).Inv ∧ ∃ t, step (facing (held 1 0 0 0) (.write 0x00 0 0x04)) = .next t :=
  ⟨{ held_inv (by decide) 0 0 0 with }, _, rfl⟩

/-- Two different states with the same written part, about to take a safe step. -/
theorem witness_UnwrittenValuesNeverMatter :
    (facing { State.reset with pkt := ⟨sid1, 1, 0⟩ } (.write 0x00 0 0x05)).writtenPart =
      (facing { State.reset with pkt := ⟨sid2, 2, 1⟩ } (.write 0x00 0 0x05)).writtenPart ∧
    (facing { State.reset with pkt := ⟨sid1, 1, 0⟩ } (.write 0x00 0 0x05)).SafeStep ∧
    (⟨sid1, 1, 0⟩ : Packet) ≠ ⟨sid2, 2, 1⟩ := by
  refine ⟨rfl, fun e rest h => ?_, by decide⟩
  cases h
  rfl

theorem witness_InvalidPacketIsNeverRead : State.reset.pktValid = false ∧ Instr.encode ≠ .new := by decide

/-- A state with the invariant, a command that goes on, and ADVANCE on a packet. -/
theorem witness_CommandsRepeatedGiveTheSameState :
    (held 1 0 0 0).Inv ∧ Instr.encode ≠ .advance ∧ (∃ t, exec .encode (held 1 0 0 0) = .next t) ∧
    (held 1 0 0 0).pktValid = true ∧ ∃ t, exec .advance (held 1 0 0 0) = .next t :=
  ⟨held_inv (by decide) 0 0 0, by decide, ⟨_, rfl⟩, rfl, ⟨_, rfl⟩⟩

theorem witness_ResetGivesTheResetValues : (facing (held 1 0 0 0) .reset).inbox = [.reset] := by rfl

theorem witness_ParametersNeverChange : ∃ t, step (facing (held 1 0 0 0) (.write 0x00 0 0x04)) = .next t :=
  ⟨_, rfl⟩

/-- NEW sets `PKT_VALID`; reset clears it. -/
theorem witness_OnlyNewSetsPktValidOnlyResetClearsIt :
    Outcome.holds (step (facing (fresh 1 0) (.write 0x00 0 0x01))) (fun t => !(fresh 1 0).pktValid && t.pktValid) = true ∧
    Outcome.holds (step (facing (held 1 0 0 0) .reset)) (fun t => (held 1 0 0 0).pktValid && !t.pktValid) = true := by
  decide

set_option maxRecDepth 4000 in
/-- Every register of the statement changes in some step that is no reset. -/
theorem witness_ResultRegistersHaveTheirWriters :
    (∀ rest, (facing (held 1 0 2 3) (.write 0x00 0 0x01)).inbox ≠ .reset :: rest) ∧
    Outcome.holds (step (facing { held 1 0 2 3 with arg := ⟨sid2, 2, 3⟩ } (.write 0x00 0 0x01))) (fun t =>
      t.pkt.sid != sid1 && t.pkt.addr != 1 && t.pkt.seq != 0) = true ∧
    Outcome.holds (step (facing (held 1 0 2 3) (.write 0x00 0 0x02))) (fun t => t.pkt.addr != 1) = true ∧
    Outcome.holds (step (facing (held 1 0 2 3) (.write 0x00 0 0x03))) (fun t => t.pkt.seq != 0) = true ∧
    Outcome.holds (step (facing (held 1 0 2 3) (.write 0x00 0 0x04))) (fun t => t.pkt.seq != 0) = true ∧
    Outcome.holds (step (facing (held 1 0 2 3) (.write 0x00 0 0x05))) (fun t => t.tx != [] && t.txLen != 0) = true ∧
    Outcome.holds (step (facing (received 49 []) (.write 0x00 0 0x06))) (fun t => t.decValid) = true := by
  refine ⟨fun rest h => (by cases h), ?_⟩
  decide

theorem witness_CommandsLeaveTheHostsRegisters :
    (facing (held 1 0 0 0) (.write 0x00 0 0x04)).issuedWord = some 0x04 ∧
    ∃ t, step (facing (held 1 0 0 0) (.write 0x00 0 0x04)) = .next t :=
  ⟨rfl, _, rfl⟩

theorem witness_OnlyEncodeReadsTheFaultConfiguration : Instr.decode ≠ .encode := by decide

/-- A command that fails and one that does not; and a step that issues no command. -/
theorem witness_ErrorRegistersDescribeTheLastCommand :
    Outcome.holds (exec .new (fresh 0 0)) (fun t => t.err.code != 0) = true ∧
    Outcome.holds (exec .new (fresh 1 0)) (fun t => t.err.code == 0) = true ∧
    (facing (fresh 1 0) (.write 0x11 0 5)).issuedWord = none ∧
    Outcome.holds (step (facing (fresh 1 0) (.write 0x11 0 5))) (fun _ => true) = true ∧
    ∀ rest, (facing (fresh 1 0) (.write 0x11 0 5)).inbox ≠ .reset :: rest :=
  ⟨by decide, by decide, by decide, by decide, fun rest h => (by cases h)⟩

/-- A step that stops at each of the two buffers. -/
theorem witness_OnlyUnwrittenBytesStopTheModel :
    step (facing State.reset (.read 0x41 48)) = .fault (.unwrittenTx 48) ∧
    step (facing State.reset (.read 0x51 63)) = .fault (.unwrittenRx 63) :=
  ⟨rfl, rfl⟩

/-- Straight after reset, with these bytes of V-E1 in the receive buffer and `RX_LEN` 47. -/
def receivedAt (offsets : List Nat) : State :=
  { State.reset with rxLen := 47, rx := offsets.map fun x => (x, frameE1.getD x 0) }

set_option maxRecDepth 4000 in
/-- Both buffers at their first and last byte; a DECODE that meets its first unwritten byte at each end of the vectors'
ranges, 18, 21, 40 and 43, and, with both vectors right, at each end of the other fields', 22, 37, 44 and 46. -/
theorem witness_UnwrittenBytesFault :
    ([0, 48].all fun i => (facing State.reset (.read 0x41 i)).inbox == [.read 0x41 i] && State.reset.tx.read i == none) =
      true ∧
    ([0, 63].all fun i => (facing State.reset (.read 0x51 i)).inbox == [.read 0x51 i] && State.reset.rx.read i == none) =
      true ∧ 63 < State.reset.params.rxCap.val ∧ (∀ l, 47 ≤ (receivedAt l).rxLen.toNat) ∧
    ([18, 21, 40, 43].all fun x =>
      let s := receivedAt ((List.range 4).map (18 + ·) ++ (List.range 4).map (40 + ·) |>.filter (· < x))
      s.rx.read x == none && (List.range x).all fun y =>
        !decide ((18 ≤ y ∧ y ≤ 21) ∨ (40 ≤ y ∧ y ≤ 43)) || (s.rx.read y).isSome) = true ∧
    ([22, 37, 44, 46].all fun x =>
      let s := receivedAt ((List.range 47).filter fun y => decide (y < x ∨ (40 ≤ y ∧ y ≤ 43)))
      s.rx.read x == none && ((List.range x).all fun y =>
        !decide ((22 ≤ y ∧ y ≤ 37) ∨ (44 ≤ y ∧ y ≤ 46)) || (s.rx.read y).isSome) &&
      (List.range 4).all fun k =>
        s.rx.read (18 + k) == (beBytes 4 s.params.vectorRootExtended.toNat)[k]? &&
        s.rx.read (40 + k) == (beBytes 4 s.params.vectorSync.toNat)[k]?) = true := by
  refine ⟨by decide, by decide, by decide, fun l => ?_, by decide, by decide⟩
  show 47 ≤ (47 : Half).toNat
  decide

set_option maxRecDepth 4000 in
/-- The arrays at their first and last index, and both buffers at their first and last written byte. -/
theorem witness_HostReadsAnswerTheRegisters :
    (0 : Nat) < 16 ∧ (15 : Nat) < 16 ∧ (0 : Nat) < 49 ∧ (48 : Nat) < 49 ∧
    (encoded 1 0).tx.read 0 = some 0 ∧ (encoded 1 0).tx.read 48 = some 0 ∧
    0 < (received 49 []).params.rxCap.val ∧ 48 < (received 49 []).params.rxCap.val ∧
    (received 49 []).rx.read 0 = some 0 ∧ (received 49 []).rx.read 48 = some 0 := by decide

theorem witness_HostReadsHaveNoSideEffect :
    (∃ t, step { State.reset with inbox := [.read 0x01 0] } = .next t) ∧
    ∃ t, step { State.reset with inbox := [.read 0x01 0, .read 0x01 0] } = .next t :=
  ⟨⟨_, rfl⟩, ⟨_, rfl⟩⟩

/-- A write to each register the host may write, the arrays at their last index. -/
theorem witness_HostWritesStoreTruncatedValues :
    (15 : Nat) < 16 ∧ 63 < State.reset.params.rxCap.val ∧
    (facing State.reset (.write 0x10 15 0x1FF)).inbox = [.write 0x10 15 0x1FF] ∧
    (facing State.reset (.write 0x51 63 0x1FF)).inbox = [.write 0x51 63 0x1FF] := by decide

/-- The three kinds of event; and the ends of each range: the reserved numbers, the first index outside each array and each
scalar, and every read-only number. -/
theorem witness_OtherAccessesAreIgnored :
    ((facing State.reset (.read 0x41 49)).inbox = [.read 0x41 49] ∧
      (facing State.reset (.write 0x41 49 5)).inbox = [.write 0x41 49 5] ∧
      (facing State.reset (.writeBack 0x41 49)).inbox = [.writeBack 0x41 49]) ∧
    (∀ n ∈ [(0x07 : Byte), 0x0F, 0x13, 0x1F, 0x23, 0x2F, 0x33, 0x3F, 0x42, 0x4F, 0x52, 0x5F, 0x63, 0xFF],
      Reg.ofNumber n = none) ∧
    (∀ n ∈ [(0x10 : Byte), 0x20, 0x60], (Reg.ofNumber n).map (Reg.length State.reset.params) = some 16) ∧
    (Reg.ofNumber 0x41).map (Reg.length State.reset.params) = some 49 ∧
    (Reg.ofNumber 0x51).map (Reg.length State.reset.params) = some State.reset.params.rxCap.val ∧
    (∀ n ∈ [(0x00 : Byte), 0x01, 0x02, 0x03, 0x04, 0x05, 0x06, 0x11, 0x12, 0x21, 0x22, 0x30, 0x31, 0x32, 0x40, 0x50, 0x61, 0x62],
      (Reg.ofNumber n).map (Reg.length State.reset.params) = some 1) ∧
    (∀ n ∈ [(0x01 : Byte), 0x02, 0x03, 0x04, 0x05, 0x06, 0x20, 0x21, 0x22, 0x40, 0x41, 0x60, 0x61, 0x62],
      (Reg.ofNumber n).map Reg.writable = some false) := by
  decide

/-- The empty write, and the largest value of two bytes. -/
theorem witness_MemReadAfterMemWrite : 0 < 256 ^ 0 ∧ 0xFFFF < 256 ^ 2 := by decide

theorem witness_FlagsLengthPacking : 0 ≤ 4095 ∧ 4095 ≤ 4095 := by decide

/-- Both ends of both ranges, inside and out. -/
theorem witness_RangeChecks :
    (∀ a ∈ [(1 : Int), 63999], 1 ≤ a ∧ a ≤ 63999) ∧ (∀ a ∈ [(0 : Int), 64000], ¬ (1 ≤ a ∧ a ≤ 63999)) ∧
    (∀ q ∈ [(0 : Int), 255], 0 ≤ q ∧ q ≤ 255) ∧ ∀ q ∈ [(-1 : Int), 256], ¬ (0 ≤ q ∧ q ≤ 255) := by decide

end Sys2Proof.Tests
end

section
/-! PROOF. 10_state.md R46 and R23: the parameters never change, and who writes `PKT_VALID`. -/

namespace Sys2Proof.Machine

/-! ## What taking an event and a register write leave unchanged -/

@[simp] theorem State.afterEvent_params (s : State) : s.afterEvent.params = s.params := rfl

@[simp] theorem State.afterEvent_pktValid (s : State) : s.afterEvent.pktValid = s.pktValid := rfl

@[simp] theorem State.writeReg_params (s : State) (r : Reg) (i : Nat) (v : Word) :
    (s.writeReg r i v).params = s.params := by
  cases r <;> rfl

@[simp] theorem State.writeReg_pktValid (s : State) (r : Reg) (i : Nat) (v : Word) :
    (s.writeReg r i v).pktValid = s.pktValid := by
  cases r <;> rfl

/-! ## The parameters -/

/-- No command changes a parameter. -/
theorem exec_params {i : Instr} {s t : State} (h : exec i s = .next t) : t.params = s.params := by
  rcases exec_next_cases h with ⟨-, e, -, -, rfl⟩ | ⟨-, -, -, rfl⟩ | ⟨-, -, -, rfl⟩ | ⟨-, -, -, rfl⟩ | ⟨-, -, rfl⟩ |
    ⟨-, -, rfl⟩ | ⟨-, e, -, -, rfl⟩ | ⟨-, sid, seq, a, -, rfl⟩ <;> rfl

/-- No command word changes a parameter, reserved ones included. -/
theorem issue_params {op : Byte} {s t : State} (h : issue op s = .next t) : t.params = s.params := by
  rcases issue_next_cases h with ⟨i, -, hi⟩ | ⟨-, rfl⟩
  · exact exec_params hi
  · rfl

/-- Settles O35, by what a step that goes on can do. -/
theorem parametersNeverChange : Obligations.ParametersNeverChange := by
  intro s t h
  rcases step_next_cases h with ⟨-, rfl⟩ | ⟨op, -, hop⟩ | ⟨-, r, i, v, -, -, rfl⟩ | ⟨-, rfl⟩ | ⟨-, v, rfl⟩ | ⟨-, -, rfl⟩
  case inr.inl => simpa using issue_params hop
  all_goals simp

/-! ## `PKT_VALID` -/

/-- A command leaves `PKT_VALID` as it is, or is a NEW that sets it. -/
theorem exec_pktValid {i : Instr} {s t : State} (h : exec i s = .next t) :
    t.pktValid = s.pktValid ∨ (i = .new ∧ t.pktValid = true) := by
  rcases exec_next_cases h with ⟨-, e, -, -, rfl⟩ | ⟨rfl, -, -, rfl⟩ | ⟨-, -, -, rfl⟩ | ⟨-, -, -, rfl⟩ | ⟨-, -, rfl⟩ |
    ⟨-, -, rfl⟩ | ⟨-, e, -, -, rfl⟩ | ⟨-, sid, seq, a, -, rfl⟩
  case inr.inl => exact .inr ⟨rfl, rfl⟩
  all_goals exact .inl rfl

/-- A command word leaves `PKT_VALID` as it is, or is the word of a NEW that sets it. -/
theorem issue_pktValid {op : Byte} {s t : State} (h : issue op s = .next t) :
    t.pktValid = s.pktValid ∨ (op = encode .new ∧ t.pktValid = true) := by
  rcases issue_next_cases h with ⟨i, rfl, hi⟩ | ⟨-, rfl⟩
  · exact (exec_pktValid hi).imp_right fun ⟨hn, hv⟩ => ⟨congrArg encode hn, hv⟩
  · exact .inl rfl

/-- A step leaves `PKT_VALID` as it is, or issues the word of a NEW that sets it, or takes the reset that clears it. -/
theorem step_pktValid {s t : State} (h : step s = .next t) :
    t.pktValid = s.pktValid ∨ (s.issuedWord = some (encode .new) ∧ t.pktValid = true) ∨
    ((∃ rest, s.inbox = .reset :: rest) ∧ t.pktValid = false) := by
  rcases step_next_cases h with ⟨-, rfl⟩ | ⟨op, hw, hop⟩ | ⟨-, r, i, v, -, -, rfl⟩ | ⟨-, rfl⟩ | ⟨-, v, rfl⟩ |
    ⟨-, hr, rfl⟩
  · exact .inl rfl
  · rcases issue_pktValid hop with hv | ⟨rfl, hv⟩
    · exact .inl hv
    · exact .inr (.inl ⟨hw, hv⟩)
  · exact .inl (by simp)
  · exact .inl rfl
  · exact .inl rfl
  · exact .inr (.inr ⟨hr, rfl⟩)

/-- Settles O36: of the three things a step can do to `PKT_VALID`, only NEW's sets it and only reset's clears it. -/
theorem onlyNewSetsPktValidOnlyResetClearsIt : Obligations.OnlyNewSetsPktValidOnlyResetClearsIt := by
  intro s t h
  rcases step_pktValid h with hv | ⟨hw, hv⟩ | ⟨hr, hv⟩
  · simp +contextual [hv]
  · exact ⟨fun _ _ => hw, fun _ ht => by simp [hv] at ht⟩
  · exact ⟨fun _ ht => by simp [hv] at ht, fun _ _ => hr⟩

end Sys2Proof.Machine
end

section
/-! PROOF. 20_memory.md R57 to R59: host reads have no side effects, and the accesses the block ignores. -/

namespace Sys2Proof.Machine

/-! ## Host reads -/

/-- A host read that goes on leaves the value it answers with the host, and changes nothing else. -/
theorem step_read {s t : State} {reg : Byte} {i : Nat} {rest : List HostEvent} (hs : s.inbox = .read reg i :: rest)
    (h : step s = .next t) : s.hostRead reg i = .ok t.readData ∧ t = { s with inbox := rest, readData := t.readData } := by
  rw [step_cons hs] at h
  have hc : ({ s with inbox := rest } : State).hostRead reg i = s.hostRead reg i := s.hostRead_congr rest s.readData reg i
  cases hr : s.hostRead reg i with
  | error f =>
    rw [perform_read_error (hc.trans hr)] at h
    cases h
  | ok v =>
    rw [perform_read_ok (hc.trans hr)] at h
    cases h
    exact ⟨rfl, rfl⟩

/-- A host read of a register that answers `v` goes on, and the host then holds `v`. -/
theorem step_read_ok {s : State} {reg : Byte} {i : Nat} {rest : List HostEvent} {v : Word}
    (hs : s.inbox = .read reg i :: rest) (hr : s.hostRead reg i = .ok v) :
    step s = .next { s with inbox := rest, readData := v } := by
  rw [step_cons hs, perform_read_ok ((s.hostRead_congr rest s.readData reg i).trans hr)]
  rfl

/-- Settles O44: the second read finds every register as the first one did. -/
theorem hostReadsHaveNoSideEffect : Obligations.HostReadsHaveNoSideEffect := by
  refine ⟨fun s t reg i rest hs h => (step_read hs h).symm, fun s t reg i rest hs h => ?_⟩
  obtain ⟨hr, ht⟩ := step_read hs h
  have hs' : t.inbox = .read reg i :: rest := by rw [ht]
  have hr' : t.hostRead reg i = .ok t.readData := by
    rw [ht, State.hostRead_congr]
    exact hr
  exact ⟨_, step_read_ok hs' hr', rfl⟩

/-! ## Accesses that are ignored -/

/-- A store to a read-only register does nothing. -/
theorem State.writeReg_readOnly (s : State) {r : Reg} (hr : r.writable = false) (i : Nat) (v : Word) :
    s.writeReg r i v = s := by
  cases r with
  | cmd | argSid | argAddr | argSeq | fiCtrl | fiSeqOffset | fiAddrOffset | rxLen | rxBuf => cases hr
  | _ => rfl

/-- A host write to a read-only register does nothing, at any index (20_memory.md R58). -/
theorem State.hostWrite_readOnly (s : State) {r : Reg} (hr : r.writable = false) (i : Nat) (v : Word) :
    s.hostWrite r.number i v = .next s := by
  rcases s.hostWrite_cases r.number i v with ⟨hn, -, -⟩ | ⟨r', -, hn, -, h⟩ | ⟨-, h⟩
  · rw [Reg.number_inj hn] at hr
    cases hr
  · rw [h, Reg.number_inj hn, s.writeReg_readOnly hr]
  · exact h

/-- A write the port ignores whatever its value, as a step: of a value, or of the value last read. -/
theorem step_write_ignored {s : State} {reg : Byte} {i : Nat} {v : Word} {rest : List HostEvent}
    (hw : ∀ w, ({ s with inbox := rest } : State).hostWrite reg i w = .next { s with inbox := rest })
    (hs : s.inbox = .write reg i v :: rest ∨ s.inbox = .writeBack reg i :: rest) :
    step s = .next { s with inbox := rest } := by
  rcases hs with hs | hs <;> rw [step_cons hs]
  · exact hw v
  · exact hw _

/-- Settles O46: no register of the map has an index there, and the numbers of the second clause are read-only. -/
theorem otherAccessesAreIgnored : Obligations.OtherAccessesAreIgnored := by
  intro s reg i v rest
  refine ⟨fun h => ?_, fun h => ?_⟩
  · have hout : ∀ r : Reg, r.number = reg → ¬ i < r.length s.params := by
      rintro r rfl
      cases r <;> simp [Reg.number, Reg.length, frameLen] at h ⊢ <;> omega
    exact ⟨fun hs => step_read_ok hs (State.access_outside hout 0).2,
      step_write_ignored fun w => (State.access_outside (s := { s with inbox := rest }) hout w).1⟩
  · have hro : (Reg.ofNumber reg).map Reg.writable = some false := by
      revert reg
      decide
    obtain ⟨r, hr, hw⟩ := Option.map_eq_some_iff.1 hro
    obtain rfl := Reg.ofNumber_eq_some.1 hr
    exact step_write_ignored (State.hostWrite_readOnly _ hw i)

end Sys2Proof.Machine
end

section
/-! PROOF. 30_encoding.md R72 and R84: the flags+length field, and the reserved opcodes. -/

namespace Sys2Proof.Machine

/-! ## The flags+length field -/

/-- The length fits below the flags nibble, so the two do not overlap. -/
theorem flagsLength_eq_add {len : Nat} (h : len ≤ 4095) : flagsLength len = 0x7000 + len :=
  (Nat.shiftLeft_add_eq_or_of_lt (show len < 2 ^ 12 by omega) 0x7).symm

/-- The flags nibble lies in the high byte alone, over the length's bits from 8 on. -/
theorem beBytes_flagsLength (len : Nat) :
    beBytes 2 (flagsLength len) = [(0x70 : Byte) ||| BitVec.ofNat 8 (len >>> 8), BitVec.ofNat 8 len] := by
  have hhigh : BitVec.ofNat 8 (flagsLength len / 256) = (0x70 : Byte) ||| BitVec.ofNat 8 (len >>> 8) := by
    rw [← Nat.shiftRight_eq_div_pow _ 8, flagsLength, Nat.shiftRight_or_distrib, BitVec.ofNat_or]
    rfl
  have hlow : BitVec.ofNat 8 (flagsLength len) = BitVec.ofNat 8 len := by
    rw [flagsLength, BitVec.ofNat_or]
    exact BitVec.zero_or
  simp [beBytes, hhigh, hlow]

/-- Bits from `k` on of a length in its 12-bit field are the length's own. -/
theorem extractLsb'_length {len : Nat} (h : len ≤ 4095) (k n : Nat) :
    (BitVec.ofNat 12 len).extractLsb' k n = BitVec.ofNat n (len >>> k) := by
  rw [BitVec.extractLsb', BitVec.toNat_ofNat, Nat.mod_eq_of_lt (by omega)]

/-- Settles O48, by splitting the field into the flags nibble and the length. -/
theorem flagsLengthPacking : Obligations.FlagsLengthPacking := by
  refine ⟨fun len h => ⟨flagsLength_eq_add h, ?_⟩, by decide⟩
  rw [beBytes_flagsLength, extractLsb'_length h, extractLsb'_length h, Nat.shiftRight_zero]

/-! ## Reserved opcodes -/

/-- The error record of `ILLEGAL_COMMAND`, field by field (60_exceptions.md R180, R187). -/
theorem errIllegal_eq (op : Byte) : errIllegal op = ⟨5, 0, op.setWidth 32, 0, 0⟩ := by
  simp [errIllegal, errRecord]

/-- No command has a reserved opcode (30_encoding.md R83, R84). -/
theorem encode_not_reserved (i : Instr) : ¬ (encode i = 0 ∨ 7 ≤ (encode i).toNat) := by
  cases i <;> decide

/-- An opcode decodes as reserved exactly when it is 0 or from 7 on (30_encoding.md R84). -/
theorem decode_eq_reserved_iff {op : Byte} : decode op = .reserved op ↔ op = 0 ∨ 7 ≤ op.toNat := by
  refine ⟨fun h => (decode_eq_reserved h).2, fun h => ?_⟩
  cases hd : decode op with
  | command i => exact absurd (decode_eq_command.1 hd ▸ h) (encode_not_reserved i)
  | reserved op' => rw [(decode_eq_reserved hd).1]

/-- A step whose next event writes a reserved opcode to `CMD` raises `ILLEGAL_COMMAND` (60_exceptions.md R187). -/
theorem step_write_reserved {s : State} {v : Word} {rest : List HostEvent}
    (hd : decode (v.setWidth 8) = .reserved (v.setWidth 8)) (hs : s.inbox = .write Reg.cmd.number 0 v :: rest) :
    step s = .next (({ s with inbox := rest } : State).raise (errIllegal (v.setWidth 8))) := by
  rw [step_cons hs, perform_write, State.hostWrite_cmd, issue_reserved hd]

/-- Settles O2: the reserved opcodes are the ones that no command has, and issuing one raises the error. -/
theorem reservedOpcodesRaiseIllegalCommand : Obligations.ReservedOpcodesRaiseIllegalCommand := by
  refine ⟨fun op h => ?_, fun op h => ?_⟩
  · have hd : decode op = .reserved op := decode_eq_reserved_iff.2 h
    refine ⟨hd, ?_⟩
    rintro s v rest rfl hs
    rw [step_write_reserved hd hs, errIllegal_eq]
    rfl
  · cases hd : decode op with
    | command i => exact ⟨i, rfl⟩
    | reserved op' => exact absurd (decode_eq_reserved hd).2 h

end Sys2Proof.Machine
end

section
/-! PROOF. 40_packet_fields.md R101, R102 and R106: the two range checks, and ADVANCE. -/

namespace Sys2Proof.Machine

/-! ## The range checks -/

/-- The detail of an error is stored mod 2^32 (60_exceptions.md R184). -/
theorem ofInt_eq_ofNat_emod (a : Int) : BitVec.ofInt 32 a = BitVec.ofNat 32 (a % 2 ^ 32).toNat := by
  apply BitVec.eq_of_toNat_eq
  rw [BitVec.toNat_ofInt, BitVec.toNat_ofNat]
  omega

/-- The record of `VALIDATION` of an address, field by field (40_packet_fields.md R101). -/
theorem errAddr_eq (a : Int) : errAddr a = ⟨1, 1, BitVec.ofNat 32 (a % 2 ^ 32).toNat, 1, 63999⟩ := by
  rw [errAddr, errRecord, ofInt_eq_ofNat_emod]
  rfl

/-- The record of `VALIDATION` of a sequence, field by field (40_packet_fields.md R102). -/
theorem errSeq_eq (q : Int) : errSeq q = ⟨1, 2, BitVec.ofNat 32 (q % 2 ^ 32).toNat, 0, 255⟩ := by
  rw [errSeq, errRecord, ofInt_eq_ofNat_emod]

/-- Settles O49, by when each check passes and what it raises otherwise. -/
theorem rangeChecks : Obligations.RangeChecks :=
  ⟨fun a => ⟨checkAddr_eq_none.2, fun h => checkAddr_eq_some.2 ⟨h, (errAddr_eq a).symm⟩⟩,
    fun q => ⟨checkSeq_eq_none.2, fun h => checkSeq_eq_some.2 ⟨h, (errSeq_eq q).symm⟩⟩⟩

/-! ## ADVANCE -/

/-- The error record of `NO_PACKET`, field by field (60_exceptions.md R186). -/
theorem errNoPacket_eq (op : Byte) : errNoPacket op = ⟨4, 0, op.setWidth 32, 0, 0⟩ := by
  simp [errNoPacket, errRecord]

/-- The next sequence wraps to 0 after 255 (40_packet_fields.md R106). -/
theorem seq_add_one_eq (q : Byte) : q + 1 = BitVec.ofNat 8 ((q.toNat + 1) % 256) := by
  apply BitVec.eq_of_toNat_eq
  rw [BitVec.toNat_add, BitVec.toNat_ofNat, Nat.mod_mod]
  rfl

/-- Settles O8, by the two things ADVANCE can do. -/
theorem advanceIncrementsTheSequence : Obligations.AdvanceIncrementsTheSequence := by
  refine ⟨decode_eq_command.2 rfl, fun s => ?_⟩
  rcases execAdvance_cases s with ⟨hv, h⟩ | ⟨hv, h⟩
  · refine ⟨fun _ => ?_, fun hv' => by simp [hv] at hv'⟩
    rw [errNoPacket_eq] at h
    exact h
  · refine ⟨fun hv' => by simp [hv] at hv', fun _ => ?_⟩
    rw [← seq_add_one_eq]
    exact h

end Sys2Proof.Machine
end

section
/-! PROOF. 41_encode.md R120 to R132: the frame ENCODE writes, and what ENCODE leaves unchanged. -/

namespace Sys2Proof.Machine

/-! ## What ENCODE comes to -/

/-- A register stored big-endian: byte `k` of `n` is its bits from `8 * (n - 1 - k)` on (00_scope.md R11). -/
theorem beBytes_toNat_getElem? {w n k : Nat} (v : BitVec w) (h : k < n) :
    (beBytes n v.toNat)[k]? = some (v.extractLsb' (8 * (n - 1 - k)) 8) :=
  beBytes_getElem? v.toNat h

/-- ENCODE with a packet stores the wire frame in `TX_BUF` and nothing past it, sets `TX_LEN` to 49, clears the error
registers and changes nothing else (41_encode.md R120, R132). -/
theorem exec_encode_held {s : State} (h : s.pktValid = true) :
    ∃ m : Memory, exec .encode s = .next { s with tx := m, txLen := 49, err := ⟨0, 0, 0, 0, 0⟩ } ∧
      ∀ x, m.read x = if x < 49 then (wireFrame s.params s.pkt s.fi)[x]? else s.tx.read x := by
  rcases execEncode_cases s with ⟨hv, -⟩ | ⟨-, he⟩
  · simp [h] at hv
  · refine ⟨_, he, fun x => ?_⟩
    rw [State.putFrame_read, wireFrame_length, frameLen]

/-- ENCODE without a packet only raises `NO_PACKET` (60_exceptions.md R186). -/
theorem exec_encode_none {s : State} (h : s.pktValid = false) : exec .encode s = .next (s.raise (errNoPacket 5)) := by
  rcases execEncode_cases s with ⟨-, he⟩ | ⟨hv, -⟩
  · exact he
  · simp [h] at hv

/-! ## The conformant frame -/

/-- Settles O12, field after field of the conformant frame, which the wire frame is when no fault is on. -/
theorem encodeWritesTheConformantFrame : Obligations.EncodeWritesTheConformantFrame := by
  intro s hv hc hs ha
  obtain ⟨m, he, hread⟩ := exec_encode_held hv
  rw [wireFrame_noFault _ _ hc hs ha] at hread
  have hin {x : Nat} (hx : x < 49) : m.read x = (frame s.params s.pkt)[x]? := by rw [hread, if_pos hx]
  have hpreamble k (hk : k < 2) : m.read k = some (s.params.preambleSize.extractLsb' (8 * (1 - k)) 8) := by
    rw [hin (by omega), frame_preamble _ _ hk, beBytes_toNat_getElem? _ hk]
  have hpostamble k (hk : k < 2) : m.read (2 + k) = some 0 := by
    rw [hin (by omega), frame_postamble _ _ hk]
  have hpid k (hk : k < 12) : m.read (4 + k) = some s.params.acnPid[k] := by
    rw [hin (by omega), frame_pid _ _ hk]
  have henvLength k (hk : k < 2) : m.read (16 + k) = [0x70, 0x21][k]? := by
    rw [hin (by omega), frame_envLength _ _ hk]
  have henvVector k (hk : k < 4) :
      m.read (18 + k) = some (s.params.vectorRootExtended.extractLsb' (8 * (3 - k)) 8) := by
    rw [hin (by omega), frame_envVector _ _ hk, beBytes_toNat_getElem? _ hk]
  have hsid k (hk : k < 16) : m.read (22 + k) = some s.pkt.sid[k] := by
    rw [hin (by omega), frame_sid _ _ hk]
  have hsyncLength k (hk : k < 2) : m.read (38 + k) = [0x70, 0x0B][k]? := by
    rw [hin (by omega), frame_syncLength _ _ hk]
  have hsyncVector k (hk : k < 4) : m.read (40 + k) = some (s.params.vectorSync.extractLsb' (8 * (3 - k)) 8) := by
    rw [hin (by omega), frame_syncVector _ _ hk, beBytes_toNat_getElem? _ hk]
  have hseq : m.read 44 = some s.pkt.seq := by
    rw [hin (by omega), frame_seq]
  have haddr k (hk : k < 2) : m.read (45 + k) = some (s.pkt.addr.extractLsb' (8 * (1 - k)) 8) := by
    rw [hin (by omega), frame_addr _ _ hk, beBytes_toNat_getElem? _ hk]
  have hreserved k (hk : k < 2) : m.read (47 + k) = some 0 := by
    rw [hin (by omega), frame_reserved _ _ hk]
  have hout a (h : 49 ≤ a) : m.read a = s.tx.read a := by rw [hread, if_neg (by omega)]
  exact ⟨_, he, rfl, hpreamble 0 (by decide), hpreamble 1 (by decide), hpostamble 0 (by decide), hpostamble 1 (by decide),
    hpid, henvLength 0 (by decide), henvLength 1 (by decide), henvVector 0 (by decide), henvVector 1 (by decide),
    henvVector 2 (by decide), henvVector 3 (by decide), hsid, hsyncLength 0 (by decide), hsyncLength 1 (by decide),
    hsyncVector 0 (by decide), hsyncVector 1 (by decide), hsyncVector 2 (by decide), hsyncVector 3 (by decide), hseq,
    haddr 0 (by decide), haddr 1 (by decide), hreserved 0 (by decide), hreserved 1 (by decide), hout⟩

/-! ## The fault configuration -/

/-- The sequence sum wraps mod 256 (41_encode.md R122). -/
theorem wireSeq_eq (pk : Packet) (f : FaultConfig) :
    wireSeq pk f = BitVec.ofNat 8 ((pk.seq.toNat + f.seqOffset.toNat) % 256) := by
  apply BitVec.eq_of_toNat_eq
  rw [wireSeq, BitVec.toNat_add, BitVec.toNat_ofNat, Nat.mod_mod]

/-- The address sum wraps mod 65536 and is stored big-endian (41_encode.md R123). -/
theorem beBytes_wireAddr (pk : Packet) (f : FaultConfig) :
    beBytes 2 (wireAddr pk f).toNat =
      [BitVec.ofNat 8 ((pk.addr.toNat + f.addrOffset.toNat) % 65536 / 256),
        BitVec.ofNat 8 ((pk.addr.toNat + f.addrOffset.toNat) % 65536 % 256)] := by
  have hlow (v : Nat) : BitVec.ofNat 8 v = BitVec.ofNat 8 (v % 256) := BitVec.eq_of_toNat_eq (by simp)
  rw [wireAddr, BitVec.toNat_add, beBytes, beBytes, beBytes, ← hlow]
  simp

/-- Settles O13: the two sums at 44 to 46, and elsewhere the switches act on the conformant byte. -/
theorem encodeAppliesTheFaultConfiguration : Obligations.EncodeAppliesTheFaultConfiguration := by
  intro s hv
  obtain ⟨m, he, hread⟩ := exec_encode_held hv
  refine ⟨_, he, rfl, fun x hx => ?_⟩
  rw [hread, if_pos hx, wireFrame_getElem? _ _ _ hx, wireSeq_eq, beBytes_wireAddr]
  -- the statement joins the three complements in one branch, the wire frame the two address bytes
  simp only [ite_or]
  by_cases h45 : x = 45
  · subst h45
    rfl
  · by_cases h46 : x = 46
    · subst h46
      rfl
    · simp only [h45, h46, if_false]

/-! ## What ENCODE leaves unchanged -/

/-- Settles O14, by the two things ENCODE can do. -/
theorem encodeFrame : Obligations.EncodeFrame := by
  intro s t h
  cases hv : s.pktValid with
  | false =>
    obtain rfl : s.raise (errNoPacket 5) = t := Host.Outcome.next.inj ((exec_encode_none hv).symm.trans h)
    simp [hv]
  | true =>
    obtain ⟨m, he, hread⟩ := exec_encode_held hv
    obtain rfl : { s with tx := m, txLen := 49, err := ⟨0, 0, 0, 0, 0⟩ } = t := Host.Outcome.next.inj (he.symm.trans h)
    have hin a (ha : a < 49) : (m.read a).isSome := by
      rw [hread, if_pos ha]
      simpa [frameLen] using ha
    have hout a (ha : 49 ≤ a) : m.read a = s.tx.read a := by rw [hread, if_neg (by omega)]
    simpa [hv] using ⟨hout, hin⟩

end Sys2Proof.Machine
end

section
/-! PROOF. 42_decode.md R152 to R159: the length floor, the two vectors, the extraction, and what an error leaves. -/

namespace Sys2Proof.Machine

/-! ## The error records of DECODE, field by field (60_exceptions.md R180) -/

theorem errTooShort_eq (n : Half) : errTooShort n = ⟨2, 0, n.setWidth 32, 0, 0⟩ := by
  simp [errTooShort, errRecord]

theorem errVectorMismatch_mask (d₁ d₂ : Bool) :
    errVectorMismatch (mismatchMask d₁ d₂) = ⟨3, 0, (if d₁ then 1 else 0) + (if d₂ then 2 else 0), 0, 0⟩ := by
  revert d₁ d₂
  decide

/-- A decoded address is no negative number, so its detail is the address itself mod 2^32. -/
theorem errAddr_natCast (a : Nat) : errAddr a = ⟨1, 1, BitVec.ofNat 32 a, 1, 63999⟩ := by
  simp [errAddr, errRecord, addrMin, addrMax]

/-! ## The length floor -/

theorem exec_decode_short {s : State} (h : s.rxLen.toNat < 47) :
    exec .decode s = .next (s.raiseDecode (errTooShort s.rxLen)) :=
  if_pos h

theorem exec_decode_long {s : State} (h : 47 ≤ s.rxLen.toNat) : exec .decode s = outcomeOf s.decodeLong :=
  execDecode_long h

/-- Settles O16: the length floor comes before every read. -/
theorem decodeRejectsShortBuffers : Obligations.DecodeRejectsShortBuffers := by
  refine ⟨decode_eq_command.2 rfl, fun s h => ?_⟩
  rw [exec_decode_short h, errTooShort_eq]
  rfl

/-! ## The two vectors -/

/-- Comparing the value read with a word is comparing the bytes with its big-endian form, in every bit. -/
theorem beNat_eq_toNat_iff {v : Vector Byte 4} {w : Word} : beNat v.toList = w.toNat ↔ v.toList = beBytes 4 w.toNat := by
  have hw : beNat (beBytes 4 w.toNat) = w.toNat := beNat_beBytes w.isLt
  refine ⟨fun h => beNat_inj (by simp) (h.trans hw.symm), fun h => ?_⟩
  rw [h, hw]

theorem mismatchMask_eq_zero {d₁ d₂ : Bool} : mismatchMask d₁ d₂ = 0 ↔ d₁ = false ∧ d₂ = false := by
  revert d₁ d₂
  decide

/-- With the two vectors written and one of them wrong DECODE raises the mismatch and extracts nothing
(42_decode.md R153, R154). -/
theorem State.decodeLong_of_mismatch {s : State} {env syn : Vector Byte 4}
    (he : ∀ k (h : k < 4), s.rx.read (18 + k) = some env[k]) (hy : ∀ k (h : k < 4), s.rx.read (40 + k) = some syn[k])
    (hne : ¬ (beNat env.toList = s.params.vectorRootExtended.toNat ∧ beNat syn.toList = s.params.vectorSync.toNat)) :
    s.decodeLong = .ok (s.raiseDecode (errVectorMismatch
      (mismatchMask (beNat env.toList != s.params.vectorRootExtended.toNat)
        (beNat syn.toList != s.params.vectorSync.toNat)))) := by
  have hm : mismatchMask (beNat env.toList != s.params.vectorRootExtended.toNat)
      (beNat syn.toList != s.params.vectorSync.toNat) ≠ 0 := by
    rw [ne_eq, mismatchMask_eq_zero]
    simpa using hne
  rw [State.decodeLong, State.rxNat_ok he, State.rxNat_ok hy]
  exact if_pos hm

/-- Settles O17: the mask has a bit for each value that differs, and a value differs exactly when its bytes do. -/
theorem decodeRejectsWrongVectors : Obligations.DecodeRejectsWrongVectors := by
  intro s env syn hl he hy hne
  simp only [← beNat_eq_toNat_iff] at hne ⊢
  rw [exec_decode_long hl, State.decodeLong_of_mismatch he hy hne, errVectorMismatch_mask]
  simp only [bne_iff_ne, ne_eq, ite_not]
  rfl

/-! ## The extraction -/

/-- Extraction from written bytes (42_decode.md R155, R156). -/
theorem State.extractDecoded_of_reads {s : State} {sid : Sid} {seq high low : Byte}
    (hs : ∀ k (h : k < 16), s.rx.read (22 + k) = some sid[k]) (hq : s.rx.read 44 = some seq)
    (hh : s.rx.read 45 = some high) (hw : s.rx.read 46 = some low) :
    s.extractDecoded = .ok (s.acceptDecoded sid seq (decodedAddr s.params.addrDecodeMult high low)) := by
  rw [State.extractDecoded, State.rxSid_ok.2 hs, State.rxByte_ok.2 hq, State.rxByte_ok.2 hh, State.rxByte_ok.2 hw]
  rfl

/-- Settles O18, by the two outcomes of the address check on what was extracted. -/
theorem decodeExtractsThePacket : Obligations.DecodeExtractsThePacket := by
  intro s sid seq high low hl he hs hy hq hh hw
  rw [exec_decode_long hl, State.decodeLong_of_vectors he hy, State.extractDecoded_of_reads hs hq hh hw, decodedAddr]
  rcases s.acceptDecoded_cases sid seq (s.params.addrDecodeMult.toNat * high.toNat + low.toNat) with ⟨ha, h⟩ | ⟨ha, h⟩
  · refine ⟨fun ha' => absurd ha' ha, fun _ => ?_⟩
    rw [h, errAddr_natCast]
    rfl
  · refine ⟨fun _ => ?_, fun ha' => absurd ha ha'⟩
    rw [h]
    rfl

/-! ## All or nothing -/

/-- A DECODE that goes on raises its error or stores a packet whose address is in range. -/
theorem exec_decode_next_cases {s t : State} (h : exec .decode s = .next t) :
    (∃ e : ErrRegs, e.code ≠ 0 ∧ t = s.raiseDecode e) ∨ (∃ p : Packet, p.InRange ∧ t = (s.putDecoded p).done) := by
  rcases exec_next_cases h with ⟨hi, -⟩ | ⟨⟨⟩, -⟩ | ⟨⟨⟩, -⟩ | ⟨⟨⟩, -⟩ | ⟨⟨⟩, -⟩ | ⟨⟨⟩, -⟩ | ⟨-, e, -, he, ht⟩ |
    ⟨-, sid, seq, a, ha, ht⟩
  · exact absurd rfl hi
  · exact .inl ⟨e, he, ht⟩
  · have hfit : (BitVec.ofNat 16 a).toNat = a := by
      rw [BitVec.toNat_ofNat]
      omega
    exact .inr ⟨_, by rwa [Packet.InRange, hfit], ht⟩

/-- Settles O19: an error has a code other than 0 and touches `DEC_VALID` alone, a success has code 0. -/
theorem decodeIsAllOrNothing : Obligations.DecodeIsAllOrNothing := by
  intro s t h
  rcases exec_decode_next_cases h with ⟨e, he, rfl⟩ | ⟨p, hp, rfl⟩
  · exact ⟨fun h0 => absurd h0 he, fun _ => ⟨rfl, rfl⟩⟩
  · exact ⟨fun _ => ⟨rfl, hp⟩, fun h0 => absurd rfl h0⟩

end Sys2Proof.Machine
end

section
/-! PROOF. 60_exceptions.md R185 and R186: what the error registers hold after a command, and who raises `NO_PACKET`. -/

namespace Sys2Proof.Machine

/-! ## What a command leaves in the error registers -/

/-- A command leaves no error or a row of the error catalogue. -/
theorem exec_err_legal {i : Instr} {s t : State} (h : exec i s = .next t) : t.err.Legal := by
  rcases exec_next_cases h with ⟨-, e, he, -, rfl⟩ | ⟨-, -, -, rfl⟩ | ⟨-, -, -, rfl⟩ | ⟨-, -, -, rfl⟩ | ⟨-, -, rfl⟩ |
    ⟨-, -, rfl⟩ | ⟨-, e, he, -, rfl⟩ | ⟨-, sid, seq, a, -, rfl⟩
  case inl | inr.inr.inr.inr.inr.inr.inl => exact he
  all_goals exact ErrRegs.legal_none

/-! ## What the error registers held before plays no part -/

/-- No command depends on what the error registers held: every check and operand reads other fields, and `raise`,
`raiseDecode` and `done`, one of which ends every path that goes on, overwrite all five. So in each command the two sides
are the same by definition. -/
theorem exec_putErr (i : Instr) (s : State) (e : ErrRegs) : exec i { s with err := e } = exec i s := by
  cases i <;> rfl

/-! ## Steps that issue no command -/

@[simp] theorem State.afterEvent_err (s : State) : s.afterEvent.err = s.err := rfl

@[simp] theorem State.writeReg_err (s : State) (r : Reg) (i : Nat) (v : Word) : (s.writeReg r i v).err = s.err := by
  cases r <;> rfl

/-- A step that neither issues a command word nor takes a reset leaves the error registers as they were. -/
theorem step_err {s t : State} (hw : s.issuedWord = none) (hr : ∀ rest, s.inbox ≠ .reset :: rest)
    (h : step s = .next t) : t.err = s.err := by
  rcases step_next_cases h with ⟨-, rfl⟩ | ⟨op, hop, -⟩ | ⟨-, r, i, v, -, -, rfl⟩ | ⟨-, rfl⟩ | ⟨-, v, rfl⟩ |
    ⟨-, ⟨rest, hi⟩, -⟩
  case inr.inl => simp [hw] at hop
  case inr.inr.inr.inr.inr => exact absurd hi (hr rest)
  all_goals simp

/-- Settles O40, by what a command leaves, what it reads and what the other steps leave. -/
theorem errorRegistersDescribeTheLastCommand : Obligations.ErrorRegistersDescribeTheLastCommand :=
  ⟨fun _ _ _ h => ⟨exec_err_legal h, (exec_err_legal h).eq_none⟩, exec_putErr, fun _ _ => step_err⟩

/-! ## `NO_PACKET` -/

/-- The packet guard on a state that holds no packet changes the error registers alone, field by field. -/
theorem State.withPacket_none_eq {s : State} (h : s.pktValid = false) (op : Byte) (k : State → State) :
    s.withPacket op k = { s with err := ⟨4, 0, op.setWidth 32, 0, 0⟩ } := by
  rw [State.withPacket_none h, errNoPacket_eq]
  rfl

/-- NEW leaves no error, or the `VALIDATION` of one of its arguments. -/
theorem exec_new_code {s t : State} (h : exec .new s = .next t) : t.err.code = 0 ∨ t.err.code = 1 := by
  rcases execNew_cases s with ⟨e, he, h'⟩ | ⟨-, h'⟩
  · obtain rfl : s.raise e = t := Host.Outcome.next.inj (h'.symm.trans h)
    rcases checkPacket_eq_some he with ⟨-, rfl⟩ | ⟨-, -, rfl⟩ <;> exact .inr rfl
  · obtain rfl := Host.Outcome.next.inj (h'.symm.trans h)
    exact .inl rfl

/-- DECODE leaves no error, or the `VALIDATION`, `DECODE_TOO_SHORT` or `DECODE_VECTOR_MISMATCH` of its buffer. -/
theorem exec_decode_code {s t : State} (h : exec .decode s = .next t) :
    t.err.code = 0 ∨ t.err.code = 1 ∨ t.err.code = 2 ∨ t.err.code = 3 := by
  rcases execDecode_cases s with ⟨-, h'⟩ | ⟨-, x, -, -, -, h'⟩ | ⟨-, m, -, h'⟩ | ⟨-, a, -, h'⟩ |
    ⟨-, sid, seq, a, -, h'⟩
  case inr.inl => cases h'.symm.trans h
  all_goals obtain rfl := Host.Outcome.next.inj (h'.symm.trans h)
  · exact .inr (.inr (.inl rfl))
  · exact .inr (.inr (.inr rfl))
  · exact .inr (.inl rfl)
  · exact .inl rfl

/-- Settles O10: the four commands stand behind the packet guard, and the codes NEW and DECODE leave are others. -/
theorem noPacketIsRaisedByTheFourCommands : Obligations.NoPacketIsRaisedByTheFourCommands := by
  refine ⟨fun s hv => ⟨?_, ?_, ?_, ?_⟩, fun s t h => ?_⟩
  · exact congrArg Host.Outcome.next (State.withPacket_none_eq hv 2 _)
  · exact congrArg Host.Outcome.next (State.withPacket_none_eq hv 3 _)
  · exact congrArg Host.Outcome.next (State.withPacket_none_eq hv 4 _)
  · exact congrArg Host.Outcome.next (State.withPacket_none_eq hv 5 _)
  · rcases h with h | h
    · rcases exec_new_code h with hc | hc <;> simp [hc]
    · rcases exec_decode_code h with hc | hc | hc | hc <;> simp [hc]

end Sys2Proof.Machine
end

section
/-! PROOF. The block's invariant: reset has it and every step keeps it (10_state.md R21, R35, R39, R42, R47). -/

namespace Sys2Proof.Machine

/-! ## The packets -/

/-- An address that passed its check fits the 16 bits of its register (40_packet_fields.md R101, R107). -/
theorem ofInt_addr_inRange {a : Int} (h : 1 ≤ a ∧ a ≤ 63999) :
    addrMin ≤ (BitVec.ofInt 16 a).toNat ∧ (BitVec.ofInt 16 a).toNat ≤ addrMax := by
  rw [BitVec.toNat_ofInt, addrMin, addrMax]
  omega

/-- A decoded address that passed its check fits the 16 bits of `DEC_ADDR` (42_decode.md R157). -/
theorem toNat_ofNat_addr {a : Nat} (h : a ≤ 63999) : (BitVec.ofNat 16 a).toNat = a := by
  rw [BitVec.toNat_ofNat]
  omega

/-! ## The invariant under each update -/

section
variable {s : State}

theorem State.Inv.afterEvent (h : s.Inv) : s.afterEvent.Inv := { h with }

theorem State.Inv.putReadData (h : s.Inv) (v : Word) : (s.putReadData v).Inv := { h with }

theorem State.Inv.raise (h : s.Inv) {e : ErrRegs} (he : e.Legal) : (s.raise e).Inv := { h with err := he }

theorem State.Inv.done (h : s.Inv) : s.done.Inv := { h with err := ErrRegs.legal_none }

theorem State.Inv.raiseDecode (h : s.Inv) {e : ErrRegs} (he : e.Legal) : (s.raiseDecode e).Inv :=
  { h with err := he, dec := nofun, decWritten := nofun }

theorem State.Inv.putPacket (h : s.Inv) {p : Packet} (hp : p.InRange) : (s.putPacket p).Inv :=
  { h with pkt := fun _ => hp }

theorem State.Inv.putPktAddr (h : s.Inv) {a : Half} (ha : addrMin ≤ a.toNat ∧ a.toNat ≤ addrMax) :
    (s.putPktAddr a).Inv :=
  { h with pkt := fun _ => ha }

/-- The sequence has no part in a packet's range: its range holds by its width (10_state.md R22). -/
theorem State.Inv.putPktSeq (h : s.Inv) (q : Byte) : (s.putPktSeq q).Inv := { h with pkt := h.pkt }

theorem State.Inv.putDecoded (h : s.Inv) {p : Packet} (hp : p.InRange) : (s.putDecoded p).Inv :=
  { h with dec := fun _ => hp, decWritten := fun _ => rfl }

/-- A frame of 49 bytes makes `TX_BUF` whole (10_state.md R39, 41_encode.md R132). -/
theorem State.Inv.putFrame (h : s.Inv) {f : List Byte} (hf : f.length = frameLen) : (s.putFrame f).Inv :=
  { h with
    txWhole := .inr ⟨rfl, fun i hi => by
      rw [State.putFrame_read, if_pos (by rw [hf]; exact hi)]
      simpa [hf, frameLen] using hi⟩
    txWf := Memory.writeBytes_wf h.txWf f (by simp [hf]) }

/-- The bits kept in `FI_CTRL` are none of the reserved ones (10_state.md R35). -/
theorem fiCtrlBits_reserved (v : Byte) : fiCtrlBits v &&& 0xF0 = 0 := by
  rw [fiCtrlBits, BitVec.and_assoc]
  exact BitVec.and_zero

/-- A host write inside a register keeps the invariant: it stores to arguments, the fault configuration or the receive
buffer. -/
theorem State.Inv.writeReg (h : s.Inv) {r : Reg} {i : Nat} (hi : i < r.length s.params) (v : Word) :
    (s.writeReg r i v).Inv := by
  cases r with
  | fiCtrl => exact { h with fiCtrl := fiCtrlBits_reserved _ }
  | rxBuf => exact { h with rxWf := Memory.write_wf _ h.rxWf hi }
  | _ => exact { h with }

end

/-- After a reset nothing is valid, no error is held and both buffers are empty (10_state.md R47). -/
theorem State.powerOn_inv (p : Params) (k : Nat) : (State.powerOn p k).Inv where
  pkt := nofun
  dec := nofun
  decWritten := nofun
  err := ErrRegs.legal_none
  fiCtrl := BitVec.zero_and
  txWhole := .inl ⟨rfl, rfl⟩
  txWf := Memory.wf_nil _
  rxWf := Memory.wf_nil _

theorem State.assertReset_inv (s : State) : s.assertReset.Inv :=
  { State.powerOn_inv s.params (s.resets + 1) with }

/-- Settles O29: `State.reset` is one of the states after a reset. -/
theorem resetHasTheInvariant : Obligations.ResetHasTheInvariant :=
  ⟨State.powerOn_inv _ _, State.powerOn_inv⟩

/-! ## The invariant under commands and steps -/

/-- Every command keeps the invariant. -/
theorem exec_inv {i : Instr} {s t : State} (hs : s.Inv) (h : exec i s = .next t) : t.Inv := by
  rcases exec_next_cases h with ⟨-, e, he, -, rfl⟩ | ⟨-, ha, -, rfl⟩ | ⟨-, -, ha, rfl⟩ | ⟨-, -, -, rfl⟩ | ⟨-, -, rfl⟩ |
    ⟨-, -, rfl⟩ | ⟨-, e, he, -, rfl⟩ | ⟨-, sid, seq, a, ha, rfl⟩
  · exact hs.raise he
  · exact (hs.putPacket (p := ⟨_, _, _⟩) (ofInt_addr_inRange ha)).done
  · exact (hs.putPktAddr (ofInt_addr_inRange ha)).done
  · exact (hs.putPktSeq _).done
  · exact (hs.putPktSeq _).done
  · exact (hs.putFrame (wireFrame_length _ _ _)).done
  · exact hs.raiseDecode he
  · exact (hs.putDecoded (by rwa [Packet.InRange, toNat_ofNat_addr ha.2])).done

/-- Every command word keeps the invariant, reserved ones included. -/
theorem issue_inv {op : Byte} {s t : State} (hs : s.Inv) (h : issue op s = .next t) : t.Inv := by
  rcases issue_next_cases h with ⟨i, -, hi⟩ | ⟨hop, rfl⟩
  · exact exec_inv hs hi
  · exact hs.raise (ErrRegs.legal_errIllegal hop)

/-- Settles O28, by what a step that goes on can do. -/
theorem stepKeepsTheInvariant : Obligations.StepKeepsTheInvariant := by
  intro s t hs h
  rcases step_next_cases h with ⟨-, rfl⟩ | ⟨op, -, hop⟩ | ⟨-, r, i, v, -, hi, rfl⟩ | ⟨-, rfl⟩ | ⟨-, v, rfl⟩ | ⟨-, -, rfl⟩
  · exact hs
  · exact issue_inv hs.afterEvent hop
  · exact hs.afterEvent.writeReg hi v
  · exact hs.afterEvent
  · exact hs.afterEvent.putReadData v
  · exact State.assertReset_inv _

end Sys2Proof.Machine
end

section
/-! PROOF. Changes of the state that a command does not see; 42_decode.md R160 to R162: what DECODE reads and what it leaves
unchanged. -/

namespace Sys2Proof.Machine

/-! ## A change of the state that a command does not see -/

/-- The packet guard commutes with a change `g` of the state that keeps `PKT_VALID`, and with which raising an error and, on
a held packet, the guarded operation commute. -/
theorem State.withPacket_map {s : State} {g : State → State} {op : Byte} {k : State → State}
    (hv : (g s).pktValid = s.pktValid) (hr : ∀ e, (g s).raise e = g (s.raise e))
    (hk : s.pktValid = true → k (g s) = g (k s)) : (g s).withPacket op k = g (s.withPacket op k) := by
  cases h : s.pktValid with
  | false => rw [State.withPacket_none h, State.withPacket_none (hv.trans h), hr]
  | true => rw [State.withPacket_held h, State.withPacket_held (hv.trans h), hk h]

section
variable {s : State} {g : State → State} (hp : (g s).params = s.params)
  (hrx : ∀ x, (18 ≤ x ∧ x ≤ 37) ∨ (40 ≤ x ∧ x ≤ 46) → (g s).rx.read x = s.rx.read x)
  (he : ∀ e, (g s).raiseDecode e = g (s.raiseDecode e)) (hd : ∀ p, ((g s).putDecoded p).done = g (s.putDecoded p).done)

include hrx in
/-- Bytes that DECODE reads, one after another, read alike. -/
theorem State.readVec_rx_map {a n : Nat} (h : ∀ i, i < n → (18 ≤ a + i ∧ a + i ≤ 37) ∨ (40 ≤ a + i ∧ a + i ≤ 46)) :
    (g s).rx.readVec Fault.unwrittenRx a n = s.rx.readVec Fault.unwrittenRx a n :=
  Memory.readVec_congr _ fun i hi => hrx _ (h i hi)

include hrx in
/-- One byte that DECODE reads reads alike. -/
theorem State.rxByte_map {a : Nat} (h : (18 ≤ a ∧ a ≤ 37) ∨ (40 ≤ a ∧ a ≤ 46)) : (g s).rxByte a = s.rxByte a := by
  rw [State.rxByte, State.rxByte, Memory.readOr, Memory.readOr, hrx a h]

include he hd in
theorem State.acceptDecoded_map (sid : Sid) (seq : Byte) (a : Nat) :
    (g s).acceptDecoded sid seq a = g (s.acceptDecoded sid seq a) := by
  rw [State.acceptDecoded, State.acceptDecoded]
  cases checkPacket a seq.toNat with
  | some e => exact he e
  | none => exact hd _

include hp hrx he hd

theorem State.extractDecoded_map : outcomeOf (g s).extractDecoded = Outcome.map g (outcomeOf s.extractDecoded) := by
  have hsid : (g s).rxSid 22 = s.rxSid 22 := State.readVec_rx_map hrx (by omega)
  rw [State.extractDecoded, State.extractDecoded, hsid, State.rxByte_map hrx (by decide),
    State.rxByte_map hrx (by decide), State.rxByte_map hrx (by decide), hp]
  rcases s.rxSid 22 with e | sid
  · rfl
  rcases s.rxByte 44 with e | seq
  · rfl
  rcases s.rxByte 45 with e | high
  · rfl
  rcases s.rxByte 46 with e | low
  · rfl
  exact congrArg Host.Outcome.next (State.acceptDecoded_map he hd _ _ _)

/-- DECODE of a buffer that is long enough commutes with a change `g` of the state that keeps the parameters and the bytes
read, and that commutes with DECODE's two endings: each read answers the same, so both sides end alike. -/
theorem State.decodeLong_map : outcomeOf (g s).decodeLong = Outcome.map g (outcomeOf s.decodeLong) := by
  have henv : (g s).rxNat 18 4 = s.rxNat 18 4 := by
    rw [State.rxNat, State.rxNat, State.readVec_rx_map hrx (by omega)]
  have hsyn : (g s).rxNat 40 4 = s.rxNat 40 4 := by
    rw [State.rxNat, State.rxNat, State.readVec_rx_map hrx (by omega)]
  rw [State.decodeLong, State.decodeLong, henv, hsyn, hp]
  rcases s.rxNat 18 4 with e | env
  · rfl
  rcases s.rxNat 40 4 with e | syn
  · rfl
  simp only [ok_bind]
  split
  · exact congrArg Host.Outcome.next (he _)
  · exact State.extractDecoded_map hp hrx he hd

end

/-- DECODE commutes with a change of the state that it does not see (`State.decodeLong_map`) and that keeps `RX_LEN`. -/
theorem exec_decode_map {s : State} {g : State → State} (hp : (g s).params = s.params) (hl : (g s).rxLen = s.rxLen)
    (hrx : (g s).rx = s.rx) (he : ∀ e, (g s).raiseDecode e = g (s.raiseDecode e))
    (hd : ∀ p, ((g s).putDecoded p).done = g (s.putDecoded p).done) :
    exec .decode (g s) = Outcome.map g (exec .decode s) := by
  by_cases h : s.rxLen.toNat < 47
  · rw [exec_decode_short h, exec_decode_short (hl ▸ h), hl, he]
    rfl
  · have hl' : 47 ≤ s.rxLen.toNat := Nat.not_lt.1 h
    rw [exec_decode_long (hl ▸ hl'), exec_decode_long hl']
    exact State.decodeLong_map hp (fun x _ => by rw [hrx]) he hd

/-- Settles O21: the change of the buffer and of its length is one that DECODE does not see. -/
theorem decodeReadsItsFieldsOnly : Obligations.DecodeReadsItsFieldsOnly := by
  intro s m n hs hn hm
  rw [exec_decode_long hs, exec_decode_long (s := { s with rx := m, rxLen := n }) hn]
  exact State.decodeLong_map (g := fun t => { t with rx := m, rxLen := n }) rfl hm (fun _ => rfl) (fun _ => rfl)

/-- Settles O22: so is the change of the registers that DECODE neither reads nor writes. -/
theorem decodeReadsNoOtherRegister : Obligations.DecodeReadsNoOtherRegister := fun _ v pk f a n m =>
  exec_decode_map (g := fun t => { t with pktValid := v, pkt := pk, fi := f, arg := a, txLen := n, tx := m })
    rfl rfl rfl (fun _ => rfl) (fun _ => rfl)

/-! ## What DECODE leaves unchanged -/

/-- Settles O20, by the two things a DECODE that goes on can do. -/
theorem decodeFrame : Obligations.DecodeFrame := by
  intro s t h
  rcases exec_decode_next_cases h with ⟨e, -, rfl⟩ | ⟨p, -, rfl⟩ <;> simp

end Sys2Proof.Machine
end

section
/-! PROOF. 10_state.md R48: no safe step lets an unspecified reset value out. Taking the written part of a state commutes
with everything the block does but reset, as long as nothing unwritten is read. -/

namespace Sys2Proof.Machine

/-! ## Masks -/

/-- Masking hides nothing of an identifier that is wholly written. -/
theorem maskSid_of_wholeArgSid {w : Written} (h : w.wholeArgSid = true) (sid : Sid) : maskSid w.argSid sid = sid := by
  rw [Written.wholeArgSid, List.all_eq_true] at h
  ext i hi
  have hw : w.argSid[i] = true := h _ (by simp)
  simp [maskSid, hw]

/-- Masking commutes with writing a byte, which is written from then on. -/
theorem maskSid_setIfInBounds (marks : Vector Bool 16) (sid : Sid) (i : Nat) (b : Byte) :
    maskSid (marks.setIfInBounds i true) (sid.setIfInBounds i b) = (maskSid marks sid).setIfInBounds i b := by
  ext j hj
  by_cases hij : i = j <;> simp [maskSid, hij]

/-- A written byte of an identifier is not masked. -/
theorem maskSid_getElem?_of_written {marks : Vector Bool 16} {i : Nat} (h : (marks[i]?.map (!·)).getD false = false)
    (sid : Sid) : (maskSid marks sid)[i]? = sid[i]? := by
  by_cases hi : i < 16
  · have hw : marks[i] = true := by simpa [hi] using h
    simp [maskSid, hi, hw]
  · simp [hi]

/-! ## The written part of a state -/

section
variable {s : State}

theorem State.writtenPart_argAddrInt (h : s.written.argAddr = true) : s.writtenPart.argAddrInt = s.argAddrInt := by
  simp [State.argAddrInt, State.writtenPart, h]

theorem State.writtenPart_argSeqInt (h : s.written.argSeq = true) : s.writtenPart.argSeqInt = s.argSeqInt := by
  simp [State.argSeqInt, State.writtenPart, h]

theorem State.writtenPart_argSid (h : s.written.wholeArgSid = true) : s.writtenPart.arg.sid = s.arg.sid :=
  maskSid_of_wholeArgSid h _

/-- A held packet is a written one (10_state.md R23). -/
theorem State.writtenPart_pkt (h : s.pktValid = true) : s.writtenPart.pkt = s.pkt := by
  simp [State.writtenPart, maskPacket, h]

theorem State.writtenPart_dec (h : s.written.dec = true) : s.writtenPart.dec = s.dec := by
  simp [State.writtenPart, maskPacket, h]

theorem State.putPktAddr_writtenPart (h : s.pktValid = true) (a : Half) :
    s.writtenPart.putPktAddr a = (s.putPktAddr a).writtenPart := by
  simp [State.putPktAddr, State.writtenPart, maskPacket, h]

theorem State.putPktSeq_writtenPart (h : s.pktValid = true) (q : Byte) :
    s.writtenPart.putPktSeq q = (s.putPktSeq q).writtenPart := by
  simp [State.putPktSeq, State.writtenPart, maskPacket, h]

/-- What is written to a register is in the written part. -/
theorem State.writeReg_writtenPart (s : State) (r : Reg) (i : Nat) (v : Word) :
    s.writtenPart.writeReg r i v = (s.writeReg r i v).writtenPart := by
  cases r with
  | argSid =>
    simp only [State.writeReg, State.writtenPart, maskSid_setIfInBounds]
    rfl
  | _ => rfl

/-- A read of a written register finds it in the written part (10_state.md R48). -/
theorem State.readReg_writtenPart {r : Reg} {i : Nat} (h : s.unwrittenReg r i = false) :
    s.writtenPart.readReg r i = s.readReg r i := by
  cases r with
  | argSid =>
    exact congrArg (fun b : Option Byte => Except.ok ((b.getD 0).setWidth 32)) (maskSid_getElem?_of_written h _)
  | argAddr =>
    have hw : s.written.argAddr = true := by simpa [State.unwrittenReg] using h
    simp [State.readReg, State.writtenPart, hw]
  | argSeq =>
    have hw : s.written.argSeq = true := by simpa [State.unwrittenReg] using h
    simp [State.readReg, State.writtenPart, hw]
  | pktSid | pktAddr | pktSeq =>
    have hw : s.pktValid = true := by simpa [State.unwrittenReg] using h
    simp only [State.readReg, State.writtenPart_pkt hw]
  | decSid | decAddr | decSeq =>
    have hw : s.written.dec = true := by simpa [State.unwrittenReg] using h
    simp only [State.readReg, State.writtenPart_dec hw]
  | _ => rfl

end

/-! ## Commands -/

/-- NEW checks its two numbers, and reads the identifier only after both checks pass (40_packet_fields.md R103). -/
theorem execNew_writtenPart {s : State} (h : commandReadsUnwritten .new s = false) :
    execNew s.writtenPart = Outcome.map State.writtenPart (execNew s) := by
  simp only [commandReadsUnwritten, Bool.or_eq_false_iff, Bool.not_eq_false', Bool.and_eq_false_imp,
    Option.isNone_iff_eq_none] at h
  obtain ⟨⟨ha, hq⟩, hsid⟩ := h
  rw [execNew, State.writtenPart_argAddrInt ha, State.writtenPart_argSeqInt hq]
  rcases execNew_cases s with ⟨e, hc, h⟩ | ⟨hc, h⟩ <;> rw [h, hc]
  · rfl
  · simp only [State.writtenPart_argSid (hsid hc)]
    rfl

/-- A command that reads nothing unwritten does to the written part what it does to the state. -/
theorem exec_writtenPart {i : Instr} {s : State} (h : commandReadsUnwritten i s = false) :
    exec i s.writtenPart = Outcome.map State.writtenPart (exec i s) := by
  cases i with
  | new => exact execNew_writtenPart h
  | setSyncAddress =>
    refine congrArg Host.Outcome.next (State.withPacket_map (g := State.writtenPart) rfl (fun _ => rfl) fun hv => ?_)
    have hw : s.written.argAddr = true := by simpa [commandReadsUnwritten, hv] using h
    simp only [State.writtenPart_argAddrInt hw, State.putPktAddr_writtenPart hv]
    cases checkAddr s.argAddrInt <;> rfl
  | setSequence =>
    refine congrArg Host.Outcome.next (State.withPacket_map (g := State.writtenPart) rfl (fun _ => rfl) fun hv => ?_)
    have hw : s.written.argSeq = true := by simpa [commandReadsUnwritten, hv] using h
    simp only [State.writtenPart_argSeqInt hw, State.putPktSeq_writtenPart hv]
    cases checkSeq s.argSeqInt <;> rfl
  | advance =>
    refine congrArg Host.Outcome.next (State.withPacket_map (g := State.writtenPart) rfl (fun _ => rfl) fun hv => ?_)
    simp only [State.writtenPart_pkt hv, State.putPktSeq_writtenPart hv]
    rfl
  | encode =>
    refine congrArg Host.Outcome.next (State.withPacket_map (g := State.writtenPart) rfl (fun _ => rfl) fun hv => ?_)
    simp only [State.writtenPart_pkt hv]
    rfl
  | decode => exact exec_decode_map (g := State.writtenPart) rfl rfl rfl (fun _ => rfl) (fun _ => rfl)

/-! ## Events -/

/-- A host write that issues no command on unwritten registers does to the written part what it does to the state. -/
theorem State.hostWrite_writtenPart {s : State} {reg : Byte} {i : Nat} {v : Word}
    (h : writeReadsUnwritten reg i v s = false) :
    s.writtenPart.hostWrite reg i v = Outcome.map State.writtenPart (s.hostWrite reg i v) := by
  rcases s.hostWrite_cases reg i v with ⟨rfl, rfl, hw⟩ | ⟨r, hr, rfl, hi, hw⟩ | ⟨hout, hw⟩ <;> rw [hw]
  · rw [State.hostWrite_cmd]
    cases hd : decode (v.setWidth 8) with
    | command c =>
      rw [issue_command hd, issue_command hd]
      exact exec_writtenPart (by simpa [writeReadsUnwritten, hd] using h)
    | reserved op =>
      rw [issue_reserved hd, issue_reserved hd]
      rfl
  · rw [State.hostWrite_reg (s := s.writtenPart) v hr hi, State.writeReg_writtenPart]
    rfl
  · exact (State.access_outside (s := s.writtenPart) hout v).1

/-- A host read of a written register answers for the written part what it answers for the state. -/
theorem State.hostRead_writtenPart {s : State} {reg : Byte} {i : Nat} (h : readsUnwritten (.read reg i) s = false) :
    s.writtenPart.hostRead reg i = s.hostRead reg i := by
  rw [State.hostRead, State.hostRead]
  cases hr : Reg.ofNumber reg with
  | none => rfl
  | some r =>
    refine if_ctx_congr Iff.rfl (fun hi => State.readReg_writtenPart ?_) fun _ => rfl
    simpa [readsUnwritten, hr, show i < r.length s.params from hi] using h

/-- An event that reads nothing unwritten does to the written part what it does to the state. Reset is left out: it puts
unspecified values into registers and marks them unwritten. -/
theorem perform_writtenPart {e : HostEvent} {s : State} (hr : e ≠ .reset) (h : readsUnwritten e s = false) :
    perform e s.writtenPart = Outcome.map State.writtenPart (perform e s) := by
  cases e with
  | write reg i v => exact State.hostWrite_writtenPart h
  | writeBack reg i => exact State.hostWrite_writtenPart h
  | read reg i =>
    rw [perform, perform, State.hostRead_writtenPart h]
    cases s.hostRead reg i <;> rfl
  | reset => exact absurd rfl hr

/-! ## Two states with the same written part -/

/-- Whether a command reads something unwritten is decided by the written part: NEW's checks come to play only when both
numbers are written. -/
theorem commandReadsUnwritten_writtenPart (i : Instr) (s : State) :
    commandReadsUnwritten i s.writtenPart = commandReadsUnwritten i s := by
  cases i with
  | new =>
    cases ha : s.written.argAddr with
    | false => simp [commandReadsUnwritten, State.writtenPart, ha]
    | true =>
      cases hq : s.written.argSeq with
      | false => simp [commandReadsUnwritten, State.writtenPart, hq]
      | true =>
        rw [commandReadsUnwritten, State.writtenPart_argAddrInt ha, State.writtenPart_argSeqInt hq]
        rfl
  | _ => rfl

/-- Whether an event reads something unwritten is decided by the written part. -/
theorem readsUnwritten_writtenPart (e : HostEvent) (s : State) : readsUnwritten e s.writtenPart = readsUnwritten e s := by
  have hwrite (reg : Byte) (i : Nat) (v : Word) :
      writeReadsUnwritten reg i v s.writtenPart = writeReadsUnwritten reg i v s := by
    simp only [writeReadsUnwritten, commandReadsUnwritten_writtenPart]
  cases e with
  | write reg i v => exact hwrite reg i v
  | writeBack reg i => exact hwrite reg i s.readData
  | read reg i => rfl
  | reset => rfl

/-- Outcomes agree when taking the written part makes them equal. -/
theorem Outcome.agree_of_map_eq {o₁ o₂ : Host.Outcome State Fault Refusal}
    (h : Outcome.map State.writtenPart o₁ = Outcome.map State.writtenPart o₂) : Outcome.agree o₁ o₂ := by
  cases o₁ with
  | next t => cases o₂ with
    | next t' => exact Host.Outcome.next.inj h
    | fault f | refused r => nomatch h
  | fault f => cases o₂ with
    | fault f' => exact Host.Outcome.fault.inj h
    | next t | refused r => nomatch h
  | refused r => cases o₂ with
    | refused r' => exact Host.Outcome.refused.inj h
    | next t | fault f => nomatch h

/-- One event on two states with the same written part, from the first of which it reads nothing unwritten. -/
theorem perform_agree {e : HostEvent} {s₁ s₂ : State} (hw : s₁.writtenPart = s₂.writtenPart)
    (h : readsUnwritten e s₁ = false) : Outcome.agree (perform e s₁) (perform e s₂) := by
  have h₂ : readsUnwritten e s₂ = false := by rw [← readsUnwritten_writtenPart, ← hw, readsUnwritten_writtenPart, h]
  by_cases hr : e = .reset
  · subst hr
    exact (congrArg (fun s : State => s.assertReset.writtenPart) hw :)
  · exact Outcome.agree_of_map_eq (by rw [← perform_writtenPart hr h, ← perform_writtenPart hr h₂, hw])

/-- Settles O30: the two inboxes are the same, and so the step takes the same event from both. -/
theorem unwrittenValuesNeverMatter : Obligations.UnwrittenValuesNeverMatter := by
  intro s₁ s₂ hw hsafe
  have hin : s₁.inbox = s₂.inbox := (congrArg State.inbox hw :)
  cases hs : s₁.inbox with
  | nil =>
    rw [step_nil hs, step_nil (hin ▸ hs)]
    exact hw
  | cons e rest =>
    rw [step_cons hs, step_cons (hin ▸ hs)]
    exact perform_agree (congrArg (fun s : State => { s with inbox := rest }) hw :) (hsafe e rest hs)

end Sys2Proof.Machine
end

section
/-! PROOF. 40_packet_fields.md R103 to R106: NEW, SET_SYNC_ADDRESS and SET_SEQUENCE, runs of ADVANCE, and what the four
commands leave unchanged. -/

namespace Sys2Proof.Machine

/-! ## Arguments as numbers -/

/-- A number read from an argument and cut to fewer bits is the argument's low bits (10_state.md R33, R34). -/
theorem ofInt_toInt_eq_setWidth {n : Nat} (hn : n ≤ 32) (w : Word) : BitVec.ofInt n w.toInt = w.setWidth n :=
  BitVec.signExtend_eq_setWidth_of_le w hn

/-- The detail of a bad address argument is the argument itself (40_packet_fields.md R101). -/
theorem errAddr_toInt (w : Word) : errAddr w.toInt = ⟨1, 1, w, 1, 63999⟩ := by
  rw [errAddr, errRecord, BitVec.ofInt_toInt]
  rfl

/-- The detail of a bad sequence argument is the argument itself (40_packet_fields.md R102). -/
theorem errSeq_toInt (w : Word) : errSeq w.toInt = ⟨1, 2, w, 0, 255⟩ := by
  rw [errSeq, errRecord, BitVec.ofInt_toInt]

/-! ## NEW and the two SETs -/

/-- Settles O5, by the cases of NEW and of its two checks. -/
theorem newConstructsThePacket : Obligations.NewConstructsThePacket := by
  refine ⟨decode_eq_command.2 rfl, fun s => ?_⟩
  rw [exec]
  rcases execNew_cases s with ⟨e, he, h⟩ | ⟨he, h⟩ <;> rw [h]
  · rcases checkPacket_eq_some he with ⟨ha, rfl⟩ | ⟨ha, hq, rfl⟩
    · rw [State.argAddrInt, errAddr_toInt]
      exact ⟨fun _ => rfl, fun ha' => absurd ha' ha, fun ha' => absurd ha' ha⟩
    · rw [State.argSeqInt, errSeq_toInt]
      exact ⟨fun ha' => absurd ha ha', fun _ _ => rfl, fun _ hq' => absurd hq' hq⟩
  · obtain ⟨ha, hq⟩ := checkPacket_eq_none.1 he
    rw [State.argAddrInt, State.argSeqInt, ofInt_toInt_eq_setWidth (by decide), ofInt_toInt_eq_setWidth (by decide)]
    exact ⟨fun ha' => absurd ha ha', fun _ hq' => absurd hq hq', fun _ _ => rfl⟩

/-- Settles O6, by the cases of SET_SYNC_ADDRESS. -/
theorem setSyncAddressMutatesTheAddress : Obligations.SetSyncAddressMutatesTheAddress := by
  refine ⟨decode_eq_command.2 rfl, fun s => ?_⟩
  rw [exec]
  rcases execSetSyncAddress_cases s with ⟨hv, h⟩ | ⟨hv, e, he, h⟩ | ⟨hv, he, h⟩ <;> rw [h]
  · rw [errNoPacket_eq]
    exact ⟨fun _ => rfl, by simp [hv], by simp [hv]⟩
  · obtain ⟨ha, rfl⟩ := checkAddr_eq_some.1 he
    rw [State.argAddrInt, errAddr_toInt]
    exact ⟨by simp [hv], fun _ _ => rfl, fun _ ha' => absurd ha' ha⟩
  · have ha := checkAddr_eq_none.1 he
    rw [State.argAddrInt, ofInt_toInt_eq_setWidth (by decide)]
    exact ⟨by simp [hv], fun _ ha' => absurd ha ha', fun _ _ => rfl⟩

/-- Settles O7, by the cases of SET_SEQUENCE. -/
theorem setSequenceMutatesTheSequence : Obligations.SetSequenceMutatesTheSequence := by
  refine ⟨decode_eq_command.2 rfl, fun s => ?_⟩
  rw [exec]
  rcases execSetSequence_cases s with ⟨hv, h⟩ | ⟨hv, e, he, h⟩ | ⟨hv, he, h⟩ <;> rw [h]
  · rw [errNoPacket_eq]
    exact ⟨fun _ => rfl, by simp [hv], by simp [hv]⟩
  · obtain ⟨hq, rfl⟩ := checkSeq_eq_some.1 he
    rw [State.argSeqInt, errSeq_toInt]
    exact ⟨by simp [hv], fun _ _ => rfl, fun _ hq' => absurd hq' hq⟩
  · have hq := checkSeq_eq_none.1 he
    rw [State.argSeqInt, ofInt_toInt_eq_setWidth (by decide)]
    exact ⟨by simp [hv], fun _ hq' => absurd hq hq', fun _ _ => rfl⟩

/-! ## Runs of ADVANCE -/

/-- A step that issues ADVANCE on a held packet. -/
theorem step_advance {s : State} (hv : s.pktValid = true) (rest : List HostEvent) :
    step { s with inbox := .write 0x00 0 0x04 :: rest } = .next { s with
      inbox := rest, err := ⟨0, 0, 0, 0, 0⟩
      pkt := { s.pkt with seq := BitVec.ofNat 8 ((s.pkt.seq.toNat + 1) % 256) } } := by
  obtain ⟨hd, hadv⟩ := advanceIncrementsTheSequence
  obtain ⟨-, hheld⟩ := hadv { s with inbox := rest }
  rw [step_cons rfl, perform_write]
  exact (State.hostWrite_cmd _ _).trans ((issue_command hd _).trans (hheld hv))

/-- Counting on from a sequence that has been counted up by 1 (40_packet_fields.md R106). -/
theorem seq_add_one_add (q : Byte) (n : Nat) :
    BitVec.ofNat 8 (((BitVec.ofNat 8 ((q.toNat + 1) % 256)).toNat + n) % 256) =
      BitVec.ofNat 8 ((q.toNat + (n + 1)) % 256) := by
  congr 1
  rw [BitVec.toNat_ofNat]
  omega

/-- `n + 1` ADVANCEs in a row, by induction on `n`: the first step leaves a state for the others. -/
theorem runSteps_advance {s : State} (hv : s.pktValid = true) (n : Nat) (rest : List HostEvent) :
    runSteps (n + 1) { s with inbox := List.replicate (n + 1) (.write 0x00 0 0x04) ++ rest } =
      .next { s with
        inbox := rest, err := ⟨0, 0, 0, 0, 0⟩
        pkt := { s.pkt with seq := BitVec.ofNat 8 ((s.pkt.seq.toNat + (n + 1)) % 256) } } := by
  induction n generalizing s with
  | zero => exact runSteps_succ 0 (step_advance hv rest)
  | succ n ih =>
    have hrest := ih (s := { s with
      err := ⟨0, 0, 0, 0, 0⟩, pkt := { s.pkt with seq := BitVec.ofNat 8 ((s.pkt.seq.toNat + 1) % 256) } }) hv
    rw [seq_add_one_add] at hrest
    exact (runSteps_succ _ (step_advance hv _)).trans hrest

/-- Settles O9: the second clause is the first one for 256 ADVANCEs, whose sum mod 256 is 0. -/
theorem advancesCountModulo256 : Obligations.AdvancesCountModulo256 := by
  intro s rest hv
  refine ⟨fun n => runSteps_advance hv n rest, ?_⟩
  have hseq : BitVec.ofNat 8 ((s.pkt.seq.toNat + (255 + 1)) % 256) = s.pkt.seq := by
    apply BitVec.eq_of_toNat_eq
    rw [BitVec.toNat_ofNat]
    omega
  rw [runSteps_advance hv 255 rest, hseq]

/-! ## What the four commands leave unchanged -/

/-- Settles O11, by the effects of the four commands: an error touches the error registers alone. -/
theorem fieldCommandsFrame : Obligations.FieldCommandsFrame := by
  intro i s t hi h
  rcases exec_next_cases h with ⟨-, e, -, -, rfl⟩ | ⟨rfl, -, -, rfl⟩ | ⟨rfl, -, -, rfl⟩ | ⟨rfl, -, -, rfl⟩ | ⟨rfl, -, rfl⟩ |
    ⟨rfl, -, -⟩ | ⟨rfl, -⟩ | ⟨rfl, -⟩
  · simp
  · simp
  · simp
  · simp
  · simp
  · simp at hi
  · simp at hi
  · simp at hi

end Sys2Proof.Machine
end

section
/-! PROOF. 10_state.md R38, R43, R49 and 20_memory.md R60: what commands read, what they write, and what repeating one
gives. -/

namespace Sys2Proof.Machine

/-! ## What commands read -/

/-- NEW commutes with a change `g` of the state that keeps the arguments and commutes with NEW's two endings. -/
theorem exec_new_map {s : State} {g : State → State} (ha : (g s).arg = s.arg) (hr : ∀ e, (g s).raise e = g (s.raise e))
    (hp : ∀ p, ((g s).putPacket p).done = g (s.putPacket p).done) :
    exec .new (g s) = Outcome.map g (exec .new s) := by
  simp only [exec, execNew, State.argAddrInt, State.argSeqInt, ha]
  cases checkPacket s.arg.addr.toInt s.arg.seq.toInt with
  | some e => exact congrArg Host.Outcome.next (hr e)
  | none => exact congrArg Host.Outcome.next (hp _)

/-- Settles O31: without a packet the packet guard lets nothing read `PKT_*`, and NEW and DECODE have no use for it. -/
theorem invalidPacketIsNeverRead : Obligations.InvalidPacketIsNeverRead := by
  intro s pk hv
  refine ⟨fun i hi => ?_, ?_⟩
  · cases i with
    | new => exact absurd rfl hi
    | decode => exact exec_decode_map (g := fun t => { t with pkt := pk }) rfl rfl rfl (fun _ => rfl) (fun _ => rfl)
    | _ =>
      exact congrArg Host.Outcome.next (State.withPacket_map (g := fun t => { t with pkt := pk }) rfl (fun _ => rfl)
        fun hv' => absurd (hv.symm.trans hv') Bool.false_ne_true)
  · have hg : { s with pkt := pk } = { s with pkt := if s.pktValid then s.pkt else pk } := by rw [hv]; rfl
    rw [hg]
    exact exec_new_map (g := fun t => { t with pkt := if t.pktValid then t.pkt else pk }) rfl (fun _ => rfl) (fun _ => rfl)

/-- Settles O39: only ENCODE's frame takes the fault configuration. -/
theorem onlyEncodeReadsTheFaultConfiguration : Obligations.OnlyEncodeReadsTheFaultConfiguration := by
  intro i s f hi
  have hguard (op : Byte) (k : State → State) (hk : k { s with fi := f } = { k s with fi := f }) :
      ({ s with fi := f } : State).withPacket op k = { s.withPacket op k with fi := f } :=
    State.withPacket_map (g := fun t => { t with fi := f }) rfl (fun _ => rfl) fun _ => hk
  cases i with
  | new => exact exec_new_map (g := fun t => { t with fi := f }) rfl (fun _ => rfl) (fun _ => rfl)
  | setSyncAddress =>
    refine congrArg Host.Outcome.next (hguard _ _ ?_)
    simp only [State.argAddrInt]
    cases checkAddr s.arg.addr.toInt <;> rfl
  | setSequence =>
    refine congrArg Host.Outcome.next (hguard _ _ ?_)
    simp only [State.argSeqInt]
    cases checkSeq s.arg.seq.toInt <;> rfl
  | advance => exact congrArg Host.Outcome.next (hguard _ _ rfl)
  | encode => exact absurd rfl hi
  | decode => exact exec_decode_map (g := fun t => { t with fi := f }) rfl rfl rfl (fun _ => rfl) (fun _ => rfl)

/-! ## What commands write -/

/-- Each result register has the commands of the register map for its writers (10_state.md R43). -/
theorem exec_result_writers {i : Instr} {s t : State} (h : exec i s = .next t) :
    (t.pkt.sid ≠ s.pkt.sid → i = .new) ∧ (t.pkt.addr ≠ s.pkt.addr → i = .new ∨ i = .setSyncAddress) ∧
    (t.pkt.seq ≠ s.pkt.seq → i = .new ∨ i = .setSequence ∨ i = .advance) ∧
    (t.tx ≠ s.tx ∨ t.txLen ≠ s.txLen → i = .encode) ∧ (t.dec ≠ s.dec ∨ t.decValid ≠ s.decValid → i = .decode) := by
  rcases exec_next_cases h with ⟨-, e, -, -, rfl⟩ | ⟨rfl, -, -, rfl⟩ | ⟨rfl, -, -, rfl⟩ | ⟨rfl, -, -, rfl⟩ | ⟨rfl, -, rfl⟩ |
    ⟨rfl, -, rfl⟩ | ⟨rfl, e, -, -, rfl⟩ | ⟨rfl, sid, seq, a, -, rfl⟩ <;> simp

/-- No two commands have one command word (30_encoding.md R83). -/
theorem encode_inj {i j : Instr} : encode i = encode j ↔ i = j :=
  ⟨fun h => Decoded.command.inj ((decode_eq_command.2 rfl).symm.trans (decode_eq_command.2 h)), congrArg _⟩

/-- Settles O37: a command word writes what its command writes, and no other step but reset writes a result register. -/
theorem resultRegistersHaveTheirWriters : Obligations.ResultRegistersHaveTheirWriters := by
  intro s t h hreset
  rcases step_next_cases h with ⟨-, rfl⟩ | ⟨op, hw, hop⟩ | ⟨-, r, i, v, -, -, rfl⟩ | ⟨-, rfl⟩ | ⟨-, v, rfl⟩ |
    ⟨-, ⟨rest, hr⟩, -⟩
  case inr.inl =>
    rw [hw]
    rcases issue_next_cases hop with ⟨i, rfl, hi⟩ | ⟨-, rfl⟩
    · simp only [Option.some.injEq, encode_inj]
      exact (exec_result_writers hi :)
    · simp [State.afterEvent]
  case inr.inr.inl => cases r <;> simp [State.writeReg, State.afterEvent]
  case inr.inr.inr.inr.inr => exact absurd hr (hreset rest)
  all_goals simp [State.afterEvent]

/-- No command writes an argument, the receive buffer or the fault configuration. -/
theorem exec_host_registers {i : Instr} {s t : State} (h : exec i s = .next t) :
    t.arg = s.arg ∧ t.rxLen = s.rxLen ∧ t.rx = s.rx ∧ t.fi = s.fi := by
  rcases exec_next_cases h with ⟨-, e, -, -, rfl⟩ | ⟨-, -, -, rfl⟩ | ⟨-, -, -, rfl⟩ | ⟨-, -, -, rfl⟩ | ⟨-, -, rfl⟩ |
    ⟨-, -, rfl⟩ | ⟨-, e, -, -, rfl⟩ | ⟨-, sid, seq, a, -, rfl⟩ <;> simp

/-- Settles O38: a command word is one of a command, or reserved and only raises its error. -/
theorem commandsLeaveTheHostsRegisters : Obligations.CommandsLeaveTheHostsRegisters := by
  intro s t op hw h
  rw [step_of_issuedWord hw] at h
  rcases issue_next_cases h with ⟨i, -, hi⟩ | ⟨-, rfl⟩
  · exact (exec_host_registers hi :)
  · exact ⟨rfl, rfl, rfl, rfl⟩

/-! ## Repeated commands -/

/-- Storing bytes that are already stored changes nothing (20_memory.md R60). -/
theorem Memory.writeBytes_writeBytes {size : Nat} {m : Memory} (hm : m.wf size = true) {a : Nat} {bs : List Byte}
    (h : a + bs.length ≤ size) : (m.writeBytes a bs).writeBytes a bs = m.writeBytes a bs := by
  have hw := Memory.writeBytes_wf hm bs h
  refine Memory.eq_of_read_eq (Memory.writeBytes_wf hw bs h) hw fun x => ?_
  simp only [Memory.read_writeBytes]
  split <;> rfl

/-- ENCODE's write repeated changes nothing. -/
theorem State.putFrame_putFrame {s : State} (hs : s.tx.wf frameLen = true) {f : List Byte} (hf : f.length = frameLen) :
    (s.putFrame f).putFrame f = s.putFrame f :=
  congrArg (fun m => { s with tx := m, txLen := BitVec.ofNat 8 frameLen })
    (Memory.writeBytes_writeBytes hs (by rw [hf, Nat.zero_add]))

/-- DECODE repeated finds the same buffer and ends alike (20_memory.md R60). -/
theorem exec_decode_twice {s t : State} (h : exec .decode s = .next t) : exec .decode t = .next t := by
  by_cases hl : s.rxLen.toNat < 47
  · obtain rfl : s.raiseDecode _ = t := Host.Outcome.next.inj ((exec_decode_short hl).symm.trans h)
    exact exec_decode_short hl
  · have hl' : 47 ≤ s.rxLen.toNat := Nat.not_lt.1 hl
    obtain ⟨r, hr⟩ := s.decodeLong_result
    rw [exec_decode_long hl', hr s rfl rfl] at h
    rcases r with f | e | p
    · cases h
    · obtain rfl : s.raiseDecode e = t := Host.Outcome.next.inj h
      rw [exec_decode_long (s := s.raiseDecode e) hl', hr (s.raiseDecode e) rfl rfl]
      rfl
    · obtain rfl : (s.putDecoded p).done = t := Host.Outcome.next.inj h
      rw [exec_decode_long (s := (s.putDecoded p).done) hl', hr (s.putDecoded p).done rfl rfl]
      rfl

section
variable {s : State}

theorem exec_new_of_inRange (ha : 1 ≤ s.argAddrInt ∧ s.argAddrInt ≤ 63999) (hq : 0 ≤ s.argSeqInt ∧ s.argSeqInt ≤ 255) :
    exec .new s =
      .next (s.putPacket ⟨s.arg.sid, BitVec.ofInt 16 s.argAddrInt, BitVec.ofInt 8 s.argSeqInt⟩).done := by
  rw [exec, execNew, checkPacket_eq_none.2 ⟨ha, hq⟩]

theorem exec_setSyncAddress_of_inRange (hv : s.pktValid = true) (ha : 1 ≤ s.argAddrInt ∧ s.argAddrInt ≤ 63999) :
    exec .setSyncAddress s = .next (s.putPktAddr (BitVec.ofInt 16 s.argAddrInt)).done := by
  rw [exec, execSetSyncAddress, State.withPacket_held hv, checkAddr_eq_none.2 ha]

theorem exec_setSequence_of_inRange (hv : s.pktValid = true) (hq : 0 ≤ s.argSeqInt ∧ s.argSeqInt ≤ 255) :
    exec .setSequence s = .next (s.putPktSeq (BitVec.ofInt 8 s.argSeqInt)).done := by
  rw [exec, execSetSequence, State.withPacket_held hv, checkSeq_eq_none.2 hq]

theorem exec_encode_of_held (hv : s.pktValid = true) :
    exec .encode s = .next (s.putFrame (wireFrame s.params s.pkt s.fi)).done := by
  rw [exec, execEncode, State.withPacket_held hv]

end

/-- A command other than ADVANCE repeated: an error is raised again, and a success finds its checks passed again and stores
the same values. -/
theorem exec_twice {i : Instr} {s t : State} (hs : s.Inv) (hi : i ≠ .advance) (h : exec i s = .next t) :
    exec i t = .next t := by
  rcases exec_next_cases h with ⟨-, e, -, -, rfl⟩ | ⟨rfl, ha, hq, rfl⟩ | ⟨rfl, hv, ha, rfl⟩ | ⟨rfl, hv, hq, rfl⟩ |
    ⟨rfl, -, -⟩ | ⟨rfl, hv, rfl⟩ | ⟨rfl, -⟩ | ⟨rfl, -⟩
  · exact (exec_putErr i s e).trans h
  · exact exec_new_of_inRange (s := (s.putPacket _).done) ha hq
  · exact exec_setSyncAddress_of_inRange (s := (s.putPktAddr _).done) hv ha
  · exact exec_setSequence_of_inRange (s := (s.putPktSeq _).done) hv hq
  · exact absurd rfl hi
  · refine (exec_encode_of_held (s := (s.putFrame _).done) hv).trans ?_
    exact (congrArg (fun u : State => Host.Outcome.next u.done)
      (State.putFrame_putFrame hs.txWf (wireFrame_length s.params s.pkt s.fi)) :)
  · exact exec_decode_twice h
  · exact exec_decode_twice h

/-- Settles O32; an ADVANCE that succeeds adds 1 to the sequence, and no byte is its own successor. -/
theorem commandsRepeatedGiveTheSameState : Obligations.CommandsRepeatedGiveTheSameState := by
  refine ⟨fun i s t => exec_twice, fun s t hv h => ?_⟩
  obtain ⟨-, hadv⟩ := advanceIncrementsTheSequence
  obtain ⟨-, hheld⟩ := hadv s
  obtain rfl := Host.Outcome.next.inj ((hheld hv).symm.trans h)
  rw [← seq_add_one_eq]
  simp

end Sys2Proof.Machine
end

section
/-! PROOF. 10_state.md R48 and 60_exceptions.md R189: what stops the model. -/

namespace Sys2Proof.Machine

/-! ## What can stop a command or an event -/

/-- A command stops only where DECODE reads an unwritten byte. -/
theorem exec_fault {i : Instr} {s : State} {f : Fault} (h : exec i s = .fault f) :
    ∃ x, 18 ≤ x ∧ x ≤ 46 ∧ f = .unwrittenRx x ∧ s.rx.read x = none := by
  cases i with
  | decode =>
    rcases execDecode_cases s with ⟨-, h'⟩ | ⟨-, x, h1, h2, hr, h'⟩ | ⟨-, m, -, h'⟩ | ⟨-, a, -, h'⟩ |
      ⟨-, sid, seq, a, -, h'⟩
    case inr.inl => exact ⟨x, h1, h2, (Host.Outcome.fault.inj (h'.symm.trans h)).symm, hr⟩
    all_goals exact nomatch h'.symm.trans h
  | _ => exact nomatch h

/-- A command word is never refused, and stops only where its command does. -/
theorem issue_stops {op : Byte} {s : State} :
    (∀ r, issue op s ≠ .refused r) ∧
    ∀ f, issue op s = .fault f → ∃ x, 18 ≤ x ∧ x ≤ 46 ∧ f = .unwrittenRx x ∧ s.rx.read x = none := by
  cases hd : decode op with
  | command i =>
    rw [issue_command hd]
    exact ⟨exec_not_refused i s, fun f => exec_fault⟩
  | reserved op' =>
    rw [issue_reserved hd]
    exact ⟨nofun, nofun⟩

/-- A host write is never refused, and stops only where a command it issues does. -/
theorem State.hostWrite_stops {s : State} {reg : Byte} {i : Nat} {v : Word} :
    (∀ r, s.hostWrite reg i v ≠ .refused r) ∧
    ∀ f, s.hostWrite reg i v = .fault f → ∃ x, 18 ≤ x ∧ x ≤ 46 ∧ f = .unwrittenRx x ∧ s.rx.read x = none := by
  rcases s.hostWrite_cases reg i v with ⟨-, -, h⟩ | ⟨r, -, -, -, h⟩ | ⟨-, h⟩ <;> rw [h]
  · exact issue_stops
  · exact ⟨nofun, nofun⟩
  · exact ⟨nofun, nofun⟩

/-- An event is never refused, and stops only at an unwritten byte inside a buffer. The receive buffer has room for every
byte that DECODE reads (00_scope.md R7). -/
theorem perform_stops (e : HostEvent) (s : State) :
    (∀ r, perform e s ≠ .refused r) ∧
    ∀ f, perform e s = .fault f →
      (∃ x, x < s.params.rxCap.val ∧ f = .unwrittenRx x ∧ s.rx.read x = none) ∨
      (∃ x, x < 49 ∧ f = .unwrittenTx x ∧ s.tx.read x = none) := by
  have hwrite (reg : Byte) (i : Nat) (v : Word) (f : Fault) (h : s.hostWrite reg i v = .fault f) :
      ∃ x, x < s.params.rxCap.val ∧ f = .unwrittenRx x ∧ s.rx.read x = none := by
    obtain ⟨x, -, hx, hf, hr⟩ := State.hostWrite_stops.2 f h
    have hcap := s.params.rxCap.property
    exact ⟨x, by omega, hf, hr⟩
  cases e with
  | write reg i v => exact ⟨State.hostWrite_stops.1, fun f h => .inl (hwrite _ _ _ f h)⟩
  | writeBack reg i => exact ⟨State.hostWrite_stops.1, fun f h => .inl (hwrite _ _ _ f h)⟩
  | read reg i =>
    cases hr : s.hostRead reg i with
    | ok v =>
      rw [perform_read_ok hr]
      exact ⟨nofun, nofun⟩
    | error f =>
      rw [perform_read_error hr]
      refine ⟨nofun, fun f' h => ?_⟩
      obtain rfl := Host.Outcome.fault.inj h
      exact (State.hostRead_error hr).imp (fun h => ⟨i, h⟩) (fun h => ⟨i, h⟩)
  | reset => exact ⟨nofun, nofun⟩

/-- Settles O41: a step waits or takes an event. -/
theorem onlyUnwrittenBytesStopTheModel : Obligations.OnlyUnwrittenBytesStopTheModel := by
  intro s
  cases hs : s.inbox with
  | nil =>
    rw [step_nil hs]
    exact ⟨nofun, nofun⟩
  | cons e rest =>
    rw [step_cons hs]
    exact perform_stops e { s with inbox := rest }

/-! ## Reads of unwritten bytes -/

/-- A host read of an unwritten byte of `TX_BUF` stops the model. -/
theorem step_read_unwrittenTx {s : State} {rest : List HostEvent} {i : Nat}
    (hs : s.inbox = .read Reg.txBuf.number i :: rest) (hi : i < 49) (hn : s.tx.read i = none) :
    step s = .fault (.unwrittenTx i) := by
  rw [step_cons hs]
  refine perform_read_error ((State.hostRead_reg _ hi).trans ?_)
  rw [State.readReg, State.txByte, Memory.readOr, hn]
  rfl

/-- A host read of an unwritten byte of `RX_BUF` stops the model. -/
theorem step_read_unwrittenRx {s : State} {rest : List HostEvent} {i : Nat}
    (hs : s.inbox = .read Reg.rxBuf.number i :: rest) (hi : i < s.params.rxCap.val) (hn : s.rx.read i = none) :
    step s = .fault (.unwrittenRx i) := by
  rw [step_cons hs]
  refine perform_read_error ((State.hostRead_reg _ (by exact hi)).trans ?_)
  rw [State.readReg, State.rxByte_unwritten (by exact hn)]
  rfl

/-- DECODE stops at the first unwritten byte of the two vectors. -/
theorem State.decodeLong_unwritten_vector {s : State} {x : Nat} (hx : (18 ≤ x ∧ x ≤ 21) ∨ (40 ≤ x ∧ x ≤ 43))
    (hn : s.rx.read x = none)
    (hw : ∀ y, (18 ≤ y ∧ y ≤ 21) ∨ (40 ≤ y ∧ y ≤ 43) → y < x → (s.rx.read y).isSome) :
    s.decodeLong = .error (.unwrittenRx x) := by
  rw [State.decodeLong]
  rcases hx with hx | hx
  · obtain ⟨k, rfl⟩ := Nat.exists_eq_add_of_le hx.1
    rw [State.rxNat_unwritten (n := 4) (by omega) hn fun j hj => hw _ (by omega) (by omega)]
    rfl
  · obtain ⟨k, rfl⟩ := Nat.exists_eq_add_of_le hx.1
    obtain ⟨env, henv⟩ := Memory.vector_of_isSome (m := s.rx) (a := 18) (n := 4) fun j hj => hw _ (by omega) (by omega)
    rw [State.rxNat_ok henv, State.rxNat_unwritten (n := 4) (by omega) hn fun j hj => hw _ (by omega) (by omega)]
    rfl

/-- Extraction stops at the first unwritten byte of the identifier, the sequence and the address. -/
theorem State.extractDecoded_unwritten {s : State} {x : Nat} (hx : (22 ≤ x ∧ x ≤ 37) ∨ (44 ≤ x ∧ x ≤ 46))
    (hn : s.rx.read x = none)
    (hw : ∀ y, (22 ≤ y ∧ y ≤ 37) ∨ (44 ≤ y ∧ y ≤ 46) → y < x → (s.rx.read y).isSome) :
    s.extractDecoded = .error (.unwrittenRx x) := by
  have hbyte (y : Nat) (hy : 44 ≤ y ∧ y ≤ 46) (hyx : y < x) : ∃ b, s.rxByte y = .ok b := by
    obtain ⟨b, hb⟩ := Option.isSome_iff_exists.1 (hw y (.inr hy) hyx)
    exact ⟨b, State.rxByte_ok.2 hb⟩
  rw [State.extractDecoded]
  rcases hx with hx | hx
  · obtain ⟨k, rfl⟩ := Nat.exists_eq_add_of_le hx.1
    rw [State.rxSid, Memory.readVec_unwritten _ (by omega) hn fun j hj => hw _ (by omega) (by omega)]
    rfl
  · obtain ⟨sid, hsid⟩ := Memory.vector_of_isSome (m := s.rx) (a := 22) (n := 16) fun j hj => hw _ (by omega) (by omega)
    rw [State.rxSid_ok.2 hsid]
    obtain rfl | rfl | rfl : x = 44 ∨ x = 45 ∨ x = 46 := by omega
    · rw [State.rxByte_unwritten hn]
      rfl
    · obtain ⟨seq, hseq⟩ := hbyte 44 (by omega) (by omega)
      rw [hseq, State.rxByte_unwritten hn]
      rfl
    · obtain ⟨seq, hseq⟩ := hbyte 44 (by omega) (by omega)
      obtain ⟨high, hhigh⟩ := hbyte 45 (by omega) (by omega)
      rw [hseq, hhigh, State.rxByte_unwritten hn]
      rfl

/-- Settles O42: with both vectors right DECODE goes on to the extraction. -/
theorem unwrittenBytesFault : Obligations.UnwrittenBytesFault := by
  refine ⟨fun s rest i => step_read_unwrittenTx, fun s rest i => step_read_unwrittenRx, fun s x hl hx hn hw => ?_,
    fun s x hl he hy hx hn hw => ?_⟩
  · rw [exec_decode_long hl, State.decodeLong_unwritten_vector hx hn hw]
    rfl
  · rw [exec_decode_long hl, State.decodeLong_of_vectors he hy, State.extractDecoded_unwritten hx hn hw]
    rfl

end Sys2Proof.Machine
end

section
/-! PROOF. 00_scope.md R11, 30_encoding.md R83 and R88, 10_state.md R31, R43 and R47: bytes in a buffer, the command word,
the register port, reset and script lines. -/

namespace Sys2Proof.Machine

/-! ## Bytes in a buffer -/

/-- Settles O47, by what a read after a write of bytes gives and what the bytes are. -/
theorem memReadAfterMemWrite : Obligations.MemReadAfterMemWrite := by
  intro m f a n v hv
  have hin (k : Nat) (hk : k < n) : (m.writeBytes a (beBytes n v)).read (a + k) = (beBytes n v)[k]? := by
    rw [Memory.read_writeBytes, beBytes_length, if_pos (by omega), Nat.add_sub_cancel_left]
  refine ⟨fun k hk => by rw [hin k hk, beBytes_getElem? v hk], ?_, fun x hx => ?_⟩
  · refine ⟨⟨(beBytes n v).toArray, by simp⟩, Memory.readVec_ok.2 fun k hk => ?_, beNat_beBytes hv⟩
    rw [hin k hk, List.getElem?_eq_getElem (by simpa using hk)]
    rfl
  · rw [Memory.read_writeBytes, beBytes_length, if_neg hx]

/-! ## The command word -/

/-- Settles O1: each word is its command's encoding, and 7 is reserved. -/
theorem commandWordsDecode : Obligations.CommandWordsDecode := by
  unfold Obligations.CommandWordsDecode
  decide

/-- Settles O3, by the opcode map read both ways. -/
theorem decodeAndEncodeAgree : Obligations.DecodeAndEncodeAgree := by
  refine ⟨fun i => ⟨?_, decode_eq_command.2 rfl⟩, fun op i => decode_eq_command.1⟩
  cases i <;> rfl

/-- A table word that names a command is that command's word. -/
theorem decodeTableWord_eq_some {nbits w : Nat} {i : Instr} (h : decodeTableWord nbits w = some i) :
    decode (tableWordByte nbits w) = .command i := by
  rw [decodeTableWord] at h
  split at h
  · next j hj => rw [hj, Option.some.inj h]
  · cases h

/-- Settles O4: the event taken writes the command word, which `withFetchWord` widens to a host value first. -/
theorem stepRunsTheDecodedCommand : Obligations.StepRunsTheDecodedCommand := by
  refine ⟨fun s op i hw hd => ?_, fun s => step_nil, fun s nbits w i h => ?_⟩
  · rw [step_of_issuedWord hw, issue_command hd]
  · have hword : (s.withFetchWord nbits w).issuedWord = some (tableWordByte nbits w) := by
      simp [State.withFetchWord, State.pushEvent, State.issuedWord]
    rw [step_of_issuedWord hword, issue_command (decodeTableWord_eq_some h)]
    rfl

/-! ## Reset -/

/-- Settles O33, by the values of `State.powerOn`. -/
theorem resetGivesTheResetValues : Obligations.ResetGivesTheResetValues := by
  intro s rest hs
  refine ⟨_, (step_cons hs).trans (perform_reset _), ?_⟩
  simp [Memory.read]

/-- Settles O34: after a reset the packet guard is shut and the receive buffer is shorter than the floor. -/
theorem firstCommandsAfterReset : Obligations.FirstCommandsAfterReset := by
  intro p k
  obtain ⟨hguard, -⟩ := noPacketIsRaisedByTheFourCommands
  obtain ⟨hset, hseq, hadv, henc⟩ := hguard (State.powerOn p k) rfl
  obtain ⟨-, hshort⟩ := decodeRejectsShortBuffers
  exact ⟨henc, hadv, hset, hseq, hshort (State.powerOn p k) (by simp), rfl, rfl, rfl, rfl, rfl, rfl⟩

/-! ## The register port -/

/-- `STATUS` is `PKT_VALID` plus twice `DEC_VALID` (10_state.md R26). -/
theorem State.status_setWidth (s : State) :
    s.status.setWidth 32 = (if s.pktValid then 1 else 0) + (if s.decValid then 2 else 0) := by
  rw [State.status]
  cases s.pktValid <;> cases s.decValid <;> rfl

/-- An identifier's bytes, read one by one. -/
theorem sid_getElem?_getD (sid : Sid) {i : Nat} (h : i < 16) : sid[i]?.getD 0 = sid[i] := by
  simp [h]

/-- Settles O43: each number is a register's of the map, and what it answers is `State.readReg`. -/
theorem hostReadsAnswerTheRegisters : Obligations.HostReadsAnswerTheRegisters := by
  intro s
  have hread (r : Reg) (hr : r.length s.params = 1) : s.hostRead r.number 0 = s.readReg r 0 :=
    s.hostRead_reg (by omega)
  have hsid (r : Reg) (hr : r.length s.params = 16) (sid : Sid)
      (hv : ∀ i, s.readReg r i = .ok ((sid[i]?.getD 0).setWidth 32)) (i : Nat) (hi : i < 16) :
      s.hostRead r.number i = .ok (sid[i].setWidth 32) := by
    rw [s.hostRead_reg (by omega), hv, sid_getElem?_getD sid hi]
  refine ⟨hread .cmd rfl, (hread .status rfl).trans (congrArg _ s.status_setWidth), hread .errCode rfl,
    hread .errField rfl, hread .errInfo rfl, hread .errLo rfl, hread .errHi rfl, hsid .argSid rfl _ fun _ => rfl,
    hread .argAddr rfl, hread .argSeq rfl, hsid .pktSid rfl _ fun _ => rfl, hread .pktAddr rfl, hread .pktSeq rfl,
    hread .fiCtrl rfl, hread .fiSeqOffset rfl, hread .fiAddrOffset rfl, hread .txLen rfl, fun i b hi hb => ?_,
    hread .rxLen rfl, fun i b hi hb => ?_, hsid .decSid rfl _ fun _ => rfl, hread .decAddr rfl, hread .decSeq rfl⟩
  · refine (s.hostRead_reg (r := .txBuf) hi).trans ?_
    rw [State.readReg, State.txByte, Memory.readOr_ok.2 hb]
    rfl
  · refine (s.hostRead_reg (r := .rxBuf) hi).trans ?_
    rw [State.readReg, State.rxByte_ok.2 hb]
    rfl

/-- A write at an index inside a vector. -/
theorem setIfInBounds_eq_set {α : Type} {n i : Nat} (xs : Vector α n) (x : α) (h : i < n) :
    xs.setIfInBounds i x = xs.set i x := by
  ext j hj
  rw [Vector.getElem_setIfInBounds, Vector.getElem_set]

/-- Settles O45: each number is a register's of the map, and what a write to it stores is `State.writeReg`. -/
theorem hostWritesStoreTruncatedValues : Obligations.HostWritesStoreTruncatedValues := by
  intro s v rest
  have hwrite (r : Reg) (hr : r ≠ .cmd) (h1 : r.length s.params = 1) (hs : s.inbox = .write r.number 0 v :: rest) :
      step s = .next (({ s with inbox := rest } : State).writeReg r 0 v) :=
    step_write hs hr (by omega)
  refine ⟨fun i hi hs => ?_, hwrite .argAddr (by decide) rfl, hwrite .argSeq (by decide) rfl,
    hwrite .fiCtrl (by decide) rfl, hwrite .fiSeqOffset (by decide) rfl, hwrite .fiAddrOffset (by decide) rfl,
    hwrite .rxLen (by decide) rfl, fun i hi hs => ?_⟩
  · rw [step_write (r := .argSid) hs (by decide) hi, State.writeReg, setIfInBounds_eq_set _ _ hi,
      setIfInBounds_eq_set _ _ hi]
  · refine ⟨_, step_write (r := .rxBuf) hs (by decide) hi, rfl, ?_, fun a ha => ?_⟩
    · exact Memory.read_write_same _ _ _
    · exact Memory.read_write_other _ _ ha

/-! ## Script lines -/

/-- `wrb` writes byte `i` at index `i`, counted from where it starts (30_encoding.md R88). -/
theorem writeBytesEvents_eq_mapIdx (r : Reg) (i : Nat) (bytes : List Int) :
    writeBytesEvents r i bytes = bytes.mapIdx fun k b => writeEvent r (i + k) b := by
  induction bytes generalizing i with
  | nil => rfl
  | cons b bs ih => simp [writeBytesEvents, ih, Nat.add_right_comm _ 1, ← Nat.add_assoc]

/-- Settles O50, line by line. -/
theorem scriptLinesExpand : Obligations.ScriptLinesExpand := by
  refine ⟨fun _ _ => rfl, fun _ _ _ => rfl, fun _ => rfl, fun _ _ => rfl, fun _ => rfl, fun r bytes => ?_,
    fun sid a q => ?_, fun _ _ => rfl, fun _ => rfl, fun _ => rfl, fun _ _ _ => rfl⟩
  · rw [HostLine.expand, writeBytesEvents_eq_mapIdx]
    simp [writeEvent]
  · simp [HostLine.expand]

end Sys2Proof.Machine
end

section
/-! PROOF. 41_encode.md R128: the six effects of the fault configuration commute, since no two act on one offset. -/

namespace Sys2Proof.Machine

/-! ## Effects on a frame -/

/-- An effect on a frame, with the first and the last offset that it acts on. -/
structure FrameEffect where
  lo : Nat
  hi : Nat
  act : List Byte → List Byte

/-- The effect changes each byte by itself, and none outside its offsets. -/
def FrameEffect.Local (e : FrameEffect) : Prop :=
  ∃ u : Nat → Byte → Byte, (∀ x b, ¬ (e.lo ≤ x ∧ x ≤ e.hi) → u x b = b) ∧ ∀ g x, (e.act g)[x]? = g[x]?.map (u x)

/-- No offset is one of both effects. -/
def FrameEffect.Apart (e e' : FrameEffect) : Prop :=
  e.hi < e'.lo ∨ e'.hi < e.lo

/-- Local effects on different offsets commute, byte by byte. -/
theorem FrameEffect.Local.commute {e e' : FrameEffect} (h : e.Local) (h' : e'.Local) (ha : e.Apart e') :
    Function.Commute e.act e'.act := by
  obtain ⟨u, hu, hact⟩ := h
  obtain ⟨u', hu', hact'⟩ := h'
  intro g
  apply List.ext_getElem?
  intro x
  rw [hact, hact', hact', hact, Option.map_map, Option.map_map]
  congr 1
  funext b
  unfold FrameEffect.Apart at ha
  by_cases hx : e.lo ≤ x ∧ x ≤ e.hi
  · have hx' : ¬ (e'.lo ≤ x ∧ x ≤ e'.hi) := by omega
    simp only [Function.comp_apply, hu' x _ hx']
  · simp only [Function.comp_apply, hu x _ hx]

/-! ## The effects of the fault configuration -/

theorem FrameEffect.local_id (lo hi : Nat) : FrameEffect.Local ⟨lo, hi, fun g => g⟩ :=
  ⟨fun _ b => b, fun _ _ _ => rfl, fun g x => by simp⟩

theorem FrameEffect.local_set {lo hi off : Nat} (h : lo ≤ off ∧ off ≤ hi) (b : Byte) :
    FrameEffect.Local ⟨lo, hi, fun g => g.set off b⟩ := by
  refine ⟨fun x c => if off = x then b else c, fun x c hx => if_neg ?_, fun g x => ?_⟩
  · rintro rfl
    exact hx h
  · by_cases hx : off = x
    · simp only [List.getElem?_set', if_pos hx]
      rfl
    · simp [hx]

theorem FrameEffect.local_modify {lo hi off : Nat} (h : lo ≤ off ∧ off ≤ hi) (v : Byte → Byte) :
    FrameEffect.Local ⟨lo, hi, fun g => g.modify off v⟩ := by
  refine ⟨fun x c => if off = x then v c else c, fun x c hx => if_neg ?_, fun g x => ?_⟩
  · rintro rfl
    exact hx h
  · by_cases hx : off = x <;> simp [hx]

theorem FrameEffect.Local.comp {lo hi : Nat} {act act' : List Byte → List Byte} (h : FrameEffect.Local ⟨lo, hi, act⟩)
    (h' : FrameEffect.Local ⟨lo, hi, act'⟩) : FrameEffect.Local ⟨lo, hi, fun g => act' (act g)⟩ := by
  obtain ⟨u, hu, hact⟩ := h
  obtain ⟨u', hu', hact'⟩ := h'
  refine ⟨fun x b => u' x (u x b), fun x b hx => (congrArg (u' x) (hu x b hx)).trans (hu' x b hx), fun g x => ?_⟩
  rw [hact', hact, Option.map_map]
  rfl

theorem FrameEffect.local_zeroIf {lo hi off : Nat} (h : lo ≤ off ∧ off ≤ hi) (c : Bool) :
    FrameEffect.Local ⟨lo, hi, zeroIf c off⟩ := by
  cases c
  · exact FrameEffect.local_id lo hi
  · exact FrameEffect.local_set h 0

theorem FrameEffect.local_complementIf {lo hi off : Nat} (h : lo ≤ off ∧ off ≤ hi) (c : Bool) :
    FrameEffect.Local ⟨lo, hi, complementIf c off⟩ := by
  cases c
  · exact FrameEffect.local_id lo hi
  · exact FrameEffect.local_modify h _

section
variable (p : Params) (pk : Packet) (f : FaultConfig)

/-- The six effects in the order of 41_encode.md R120, with the offsets each can act on (00_scope.md R7). -/
def faultEffects : List FrameEffect :=
  [ ⟨44, 44, fun g => g.set 44 (wireSeq pk f)⟩,
    ⟨45, 46, fun g => putBytes g 45 (beBytes 2 (wireAddr pk f).toNat)⟩,
    ⟨4, 15, zeroIf (f.switch 0) p.fiPidOffset.val⟩,
    ⟨0, 1, complementIf (f.switch 1) p.fiPreambleOffset.val⟩,
    ⟨18, 21, complementIf (f.switch 2) p.fiEnvVecOffset.val⟩,
    ⟨40, 43, complementIf (f.switch 3) p.fiSyncVecOffset.val⟩ ]

/-- ENCODE's frame is the conformant one under the six effects in order (41_encode.md R120). -/
theorem foldl_faultEffects :
    ((faultEffects p pk f).map FrameEffect.act).foldl (fun g act => act g) (frame p pk) = wireFrame p pk f := rfl

theorem faultEffects_local : ∀ e ∈ faultEffects p pk f, e.Local := by
  have haddr : FrameEffect.Local ⟨45, 46, fun g => putBytes g 45 (beBytes 2 (wireAddr pk f).toNat)⟩ :=
    (FrameEffect.local_set (by decide) _).comp (FrameEffect.local_set (by decide) _)
  simp only [faultEffects, List.forall_mem_cons]
  exact ⟨FrameEffect.local_set (by decide) _, haddr, FrameEffect.local_zeroIf p.fiPidOffset.property _,
    FrameEffect.local_complementIf p.fiPreambleOffset.property _,
    FrameEffect.local_complementIf p.fiEnvVecOffset.property _,
    FrameEffect.local_complementIf p.fiSyncVecOffset.property _, nofun⟩

theorem faultEffects_apart : (faultEffects p pk f).Pairwise FrameEffect.Apart := by
  simp [faultEffects, FrameEffect.Apart]

theorem faultEffects_commute : ((faultEffects p pk f).map FrameEffect.act).Pairwise Function.Commute := by
  have hloc := faultEffects_local p pk f
  rw [List.pairwise_map]
  exact (faultEffects_apart p pk f).imp_of_mem fun he he' ha => (hloc _ he).commute (hloc _ he') ha

end

/-- Settles O15: a fold over effects that commute does not depend on their order. -/
theorem faultEffectsCommute : Obligations.FaultEffectsCommute := by
  intro p pk f effects hperm
  have hc := faultEffects_commute p pk f
  have hall := hc.forall_of_forall_of_flip (fun _ _ => Function.Commute.refl _) (hc.imp Function.Commute.symm)
  rw [← foldl_faultEffects]
  exact (hperm.symm.foldl_eq' (fun e he e' he' g => (hall he' he g)) (frame p pk)).symm

end Sys2Proof.Machine
end

section
/-! PROOF. 41_encode.md R126, R127 and R133, 42_decode.md R163: what DECODE makes of a frame that ENCODE wrote. -/

namespace Sys2Proof.Machine

/-! ## The two bytes of an address -/

theorem highByte_toNat (a : Half) : (a.extractLsb' 8 8).toNat = a.toNat / 256 := by
  rw [BitVec.extractLsb'_toNat, Nat.shiftRight_eq_div_pow]
  omega

theorem lowByte_toNat (a : Half) : (a.extractLsb' 0 8).toNat = a.toNat % 256 := by
  rw [BitVec.extractLsb'_toNat, Nat.shiftRight_zero]

/-- With the multiplier 256 the two bytes of an address give it back (42_decode.md R156). -/
theorem decodedAddr_by256 (a : Half) : decodedAddr .by256 (a.extractLsb' 8 8) (a.extractLsb' 0 8) = a.toNat := by
  rw [decodedAddr, highByte_toNat, lowByte_toNat, AddrMult.toNat]
  omega

/-- With the multiplier 255 the two bytes of an address give it less its high byte (42_decode.md R163). -/
theorem decodedAddr_by255 (a : Half) :
    decodedAddr .by255 (a.extractLsb' 8 8) (a.extractLsb' 0 8) = a.toNat - a.toNat / 256 := by
  rw [decodedAddr, highByte_toNat, lowByte_toNat, AddrMult.toNat]
  omega

/-- Settles O23: each clause is linear arithmetic on the two bytes. -/
theorem decodedAddressArithmetic255 : Obligations.DecodedAddressArithmetic255 := by
  have h0 : (0 : Byte).toNat = 0 := rfl
  have h255 : (255 : Byte).toNat = 255 := rfl
  have hval (high low : Byte) : decodedAddr .by255 high low = 255 * high.toNat + low.toNat := rfl
  refine ⟨fun high low => ?_, fun addr h1 h2 => ?_, fun h hh => ?_, fun high low => ?_⟩
  · rw [hval]
    omega
  · rw [decodedAddr_by255]
    omega
  · rw [hval, hval, BitVec.toNat_ofNat, BitVec.toNat_ofNat, h0, h255]
    omega
  · rw [hval, ← BitVec.toNat_inj, ← BitVec.toNat_inj, h0]
    omega

/-! ## The vectors on the wire -/

section
variable (p : Params) (pk : Packet) (f : FaultConfig)

/-- The envelope vector on the wire: the conformant one, with one byte complemented when its switch is on
(41_encode.md R126). -/
theorem wireFrame_envVector {k : Nat} (hk : k < 4) :
    (wireFrame p pk f)[18 + k]? =
      if f.switch 2 = true ∧ 18 + k = p.fiEnvVecOffset.val then (beBytes 4 p.vectorRootExtended.toNat)[k]?.map (~~~ ·)
      else (beBytes 4 p.vectorRootExtended.toNat)[k]? := by
  have hpid := p.fiPidOffset.property
  have hpre := p.fiPreambleOffset.property
  have hsync := p.fiSyncVecOffset.property
  rw [wireFrame_getElem? p pk f (by rw [frameLen]; omega), frame_envVector p pk hk, if_neg (by omega), if_neg (by omega),
    if_neg (by omega), if_neg (by omega), if_neg (c := _ ∧ 18 + k = p.fiSyncVecOffset.val) (by omega)]

/-- The synchronization vector on the wire (41_encode.md R127). -/
theorem wireFrame_syncVector {k : Nat} (hk : k < 4) :
    (wireFrame p pk f)[40 + k]? =
      if f.switch 3 = true ∧ 40 + k = p.fiSyncVecOffset.val then (beBytes 4 p.vectorSync.toNat)[k]?.map (~~~ ·)
      else (beBytes 4 p.vectorSync.toNat)[k]? := by
  have hpid := p.fiPidOffset.property
  have hpre := p.fiPreambleOffset.property
  have henv := p.fiEnvVecOffset.property
  rw [wireFrame_getElem? p pk f (by rw [frameLen]; omega), frame_syncVector p pk hk, if_neg (by omega), if_neg (by omega),
    if_neg (by omega), if_neg (by omega), if_neg (by omega)]

/-- No switch reaches the session identifier (41_encode.md R131). -/
theorem wireFrame_sid {k : Nat} (hk : k < 16) : (wireFrame p pk f)[22 + k]? = some pk.sid[k] := by
  have hpid := p.fiPidOffset.property
  have hpre := p.fiPreambleOffset.property
  have henv := p.fiEnvVecOffset.property
  have hsync := p.fiSyncVecOffset.property
  rw [wireFrame_getElem? p pk f (by rw [frameLen]; omega), frame_sid p pk hk, if_neg (by omega), if_neg (by omega),
    if_neg (by omega), if_neg (by omega), if_neg (by omega), if_neg (by omega)]

theorem wireFrame_seq : (wireFrame p pk f)[44]? = some (wireSeq pk f) := by
  rw [wireFrame_getElem? p pk f (by decide), if_pos rfl]

theorem wireFrame_addr {k : Nat} (hk : k < 2) :
    (wireFrame p pk f)[45 + k]? = some ((wireAddr pk f).extractLsb' (8 * (1 - k)) 8) := by
  rw [wireFrame_getElem? p pk f (by rw [frameLen]; omega), if_neg (by omega), if_pos (by omega), Nat.add_sub_cancel_left,
    beBytes_toNat_getElem? _ hk]

end

/-- A complemented byte is another byte. -/
theorem not_ne_self (b : Byte) : ~~~b ≠ b := by
  revert b
  decide

/-- A vector read from the wire is the right one exactly when its switch is off (41_encode.md R126, R127). -/
theorem exists_vector_of_complemented {m : Memory} {a off : Nat} {c : Bool} {w : Word} (ho : a ≤ off ∧ off ≤ a + 3)
    (h : ∀ k, k < 4 → m.read (a + k) =
      if c = true ∧ a + k = off then (beBytes 4 w.toNat)[k]?.map (~~~ ·) else (beBytes 4 w.toNat)[k]?) :
    ∃ v : Vector Byte 4, (∀ k (hk : k < 4), m.read (a + k) = some v[k]) ∧ (v.toList = beBytes 4 w.toNat ↔ c = false) := by
  obtain ⟨v, hv⟩ := Memory.vector_of_isSome (m := m) (a := a) (n := 4) fun k hk => by
    rw [h k hk, beBytes_getElem? _ hk]
    split <;> rfl
  refine ⟨v, hv, fun heq => ?_, ?_⟩
  · obtain ⟨k, rfl⟩ := Nat.exists_eq_add_of_le ho.1
    have hk : k < 4 := by omega
    have hb : (beBytes 4 w.toNat)[k]? = some v[k] := by simp [← heq, hk]
    cases c with
    | false => rfl
    | true =>
      have hr := (hv k hk).symm.trans (h k hk)
      rw [if_pos ⟨rfl, rfl⟩, hb] at hr
      exact absurd (Option.some.inj hr).symm (not_ne_self _)
  · rintro rfl
    refine List.ext_getElem? fun k => ?_
    by_cases hk : k < 4
    · have hr := (hv k hk).symm.trans (h k hk)
      rw [if_neg (by simp)] at hr
      rw [← hr]
      simp [hk]
    · rw [List.getElem?_eq_none (by simpa using hk), List.getElem?_eq_none (by simpa using hk)]

/-! ## DECODE of the frame on the wire -/

/-- The receive buffer is long enough for DECODE and holds the frame `f` where DECODE reads (42_decode.md R151). -/
structure State.Receives (d : State) (f : List Byte) : Prop where
  long : 47 ≤ d.rxLen.toNat
  read : ∀ x, 18 ≤ x → x ≤ 46 → d.rx.read x = f[x]?

section
variable {d : State} {p : Params} {pk : Packet} {f : FaultConfig}

/-- With a vector switch on DECODE raises the mismatch, and the mask has a bit for each switch that is on
(41_encode.md R126, R127). -/
theorem exec_decode_of_vector_fault (hp : d.params = p) (h : d.Receives (wireFrame p pk f))
    (hsw : f.switch 2 = true ∨ f.switch 3 = true) :
    exec .decode d = .next { d with
      decValid := false
      err := ⟨3, 0, (if f.switch 2 = false then 0 else 1) + (if f.switch 3 = false then 0 else 2), 0, 0⟩ } := by
  subst hp
  obtain ⟨env, henv, henv'⟩ := exists_vector_of_complemented d.params.fiEnvVecOffset.property fun k hk =>
    (h.read _ (by omega) (by omega)).trans (wireFrame_envVector d.params pk f hk)
  obtain ⟨syn, hsyn, hsyn'⟩ := exists_vector_of_complemented d.params.fiSyncVecOffset.property fun k hk =>
    (h.read _ (by omega) (by omega)).trans (wireFrame_syncVector d.params pk f hk)
  have hne : ¬ (env.toList = beBytes 4 d.params.vectorRootExtended.toNat ∧
      syn.toList = beBytes 4 d.params.vectorSync.toNat) := by
    rw [henv', hsyn', not_and_or, Bool.not_eq_false, Bool.not_eq_false]
    exact hsw
  rw [decodeRejectsWrongVectors d env syn h.long henv hsyn hne]
  simp only [henv', hsyn']

/-- With both vector switches off DECODE takes the fields on the wire and checks the address (42_decode.md R155 to R158). -/
theorem exec_decode_of_wireFrame (hp : d.params = p) (h : d.Receives (wireFrame p pk f)) (h2 : f.switch 2 = false)
    (h3 : f.switch 3 = false) {a : Nat}
    (ha : decodedAddr p.addrDecodeMult ((wireAddr pk f).extractLsb' 8 8) ((wireAddr pk f).extractLsb' 0 8) = a) :
    (1 ≤ a ∧ a ≤ 63999 →
      exec .decode d = .next { d with
        dec := ⟨pk.sid, BitVec.ofNat 16 a, wireSeq pk f⟩, decValid := true
        written := { d.written with dec := true }, err := ⟨0, 0, 0, 0, 0⟩ }) ∧
    (¬ (1 ≤ a ∧ a ≤ 63999) →
      exec .decode d = .next { d with decValid := false, err := ⟨1, 1, BitVec.ofNat 32 a, 1, 63999⟩ }) := by
  subst hp ha
  refine decodeExtractsThePacket d pk.sid (wireSeq pk f) _ _ h.long (fun k hk => ?_) (fun k hk => ?_) (fun k hk => ?_)
    ?_ ?_ ?_ <;> rw [h.read _ (by omega) (by omega)]
  · rw [wireFrame_envVector _ _ _ hk, if_neg fun hc => Bool.false_ne_true (h2.symm.trans hc.1)]
  · exact wireFrame_sid _ _ _ hk
  · rw [wireFrame_syncVector _ _ _ hk, if_neg fun hc => Bool.false_ne_true (h3.symm.trans hc.1)]
  · exact wireFrame_seq _ _ _
  · exact wireFrame_addr _ _ _ (k := 0) (by decide)
  · exact wireFrame_addr _ _ _ (k := 1) (by decide)

/-- The same with the multiplier 256: DECODE's address is the one on the wire (42_decode.md R156). -/
theorem exec_decode_by256 (hm : p.addrDecodeMult = .by256) (hp : d.params = p) (h : d.Receives (wireFrame p pk f))
    (h2 : f.switch 2 = false) (h3 : f.switch 3 = false) :
    (1 ≤ (wireAddr pk f).toNat ∧ (wireAddr pk f).toNat ≤ 63999 →
      exec .decode d = .next { d with
        dec := ⟨pk.sid, wireAddr pk f, wireSeq pk f⟩, decValid := true
        written := { d.written with dec := true }, err := ⟨0, 0, 0, 0, 0⟩ }) ∧
    (¬ (1 ≤ (wireAddr pk f).toNat ∧ (wireAddr pk f).toNat ≤ 63999) →
      exec .decode d = .next { d with decValid := false, err := ⟨1, 1, (wireAddr pk f).setWidth 32, 1, 63999⟩ }) := by
  have hdec := exec_decode_of_wireFrame hp h h2 h3 (hm ▸ decodedAddr_by256 (wireAddr pk f))
  rwa [BitVec.ofNat_toNat, BitVec.setWidth_eq, BitVec.ofNat_toNat] at hdec

end

/-- ENCODE's frame, received. -/
theorem State.receives_wireFrame {s t d : State} (hv : s.pktValid = true) (h : exec .encode s = .next t)
    (hl : 47 ≤ d.rxLen.toNat) (hd : ∀ x, 18 ≤ x → x ≤ 46 → d.rx.read x = t.tx.read x) :
    d.Receives (wireFrame s.params s.pkt s.fi) := by
  obtain ⟨m, he, hread⟩ := exec_encode_held hv
  obtain rfl := Host.Outcome.next.inj (he.symm.trans h)
  exact ⟨hl, fun x h1 h2 => by rw [hd x h1 h2]; exact (hread x).trans (if_pos (by omega))⟩

/-- The byte at a vector switch's offset, when the switch is on (41_encode.md R126, R127). -/
theorem exec_encode_complements {s t : State} (hv : s.pktValid = true) (h : exec .encode s = .next t) :
    (s.fi.switch 2 = true → t.tx.read s.params.fiEnvVecOffset.val =
      (frame s.params s.pkt)[s.params.fiEnvVecOffset.val]?.map (fun b => ~~~b)) ∧
    (s.fi.switch 3 = true → t.tx.read s.params.fiSyncVecOffset.val =
      (frame s.params s.pkt)[s.params.fiSyncVecOffset.val]?.map (fun b => ~~~b)) := by
  obtain ⟨m, he, hread⟩ := exec_encode_held hv
  obtain rfl := Host.Outcome.next.inj (he.symm.trans h)
  have henv := s.params.fiEnvVecOffset.property
  have hsync := s.params.fiSyncVecOffset.property
  constructor
  · intro hsw
    obtain ⟨k, hk⟩ := Nat.exists_eq_add_of_le henv.1
    rw [hread, if_pos (by omega), hk, wireFrame_envVector _ _ _ (by omega), if_pos ⟨hsw, hk.symm⟩,
      frame_envVector _ _ (by omega)]
  · intro hsw
    obtain ⟨k, hk⟩ := Nat.exists_eq_add_of_le hsync.1
    rw [hread, if_pos (by omega), hk, wireFrame_syncVector _ _ _ (by omega), if_pos ⟨hsw, hk.symm⟩,
      frame_syncVector _ _ (by omega)]

/-- Settles O24: the mask has the bit of each switch that is on. -/
theorem vectorCorruptionFailsDecode : Obligations.VectorCorruptionFailsDecode := by
  intro s t d hv h hp hl hd
  have hrec := State.receives_wireFrame hv h hl hd
  obtain ⟨henv, hsync⟩ := exec_encode_complements hv h
  refine ⟨fun hsw => ⟨henv hsw, _, exec_decode_of_vector_fault hp hrec (.inl hsw), ?_⟩,
    fun hsw => ⟨hsync hsw, _, exec_decode_of_vector_fault hp hrec (.inr hsw), ?_⟩⟩
  · rw [show s.fi.switch 2 = true from hsw]
    cases s.fi.switch 3 <;> decide
  · rw [show s.fi.switch 3 = true from hsw]
    cases s.fi.switch 2 <;> decide

/-! ## One fault at a time -/

/-- The switches are the low four bits of `FI_CTRL` (10_state.md R35). -/
theorem FaultConfig.switch_of_ctrl {f : FaultConfig} {v : Byte} (h : f.ctrl &&& 0x0F = v) {b : Nat} (hb : b < 4) :
    f.switch b = v.getLsbD b := by
  have hmask : (0x0F : Byte).getLsbD b = true := by
    revert b
    decide
  rw [← h, BitVec.getLsbD_and, hmask, Bool.and_true]

/-- Settles O25: which switches are on says how DECODE ends, and the two sums are what it finds in the fields. -/
theorem faultsAsDecodeSeesThem : Obligations.FaultsAsDecodeSeesThem := by
  intro s t d hv hr hm h hp hl hd
  have hrec := State.receives_wireFrame hv h hl hd
  have hseq0 (h0 : s.fi.seqOffset = 0) : wireSeq s.pkt s.fi = s.pkt.seq := by rw [wireSeq, h0]; exact BitVec.add_zero _
  have haddr0 (h0 : s.fi.addrOffset = 0) : wireAddr s.pkt s.fi = s.pkt.addr := by rw [wireAddr, h0]; exact BitVec.add_zero _
  refine ⟨fun hc hs ha => ?_, fun hc hs ha => ?_, fun hc hs ha => ?_, fun hc ha => ?_, fun hc hs => ?_⟩
  · have hsw : s.fi.switch 2 = false ∧ s.fi.switch 3 = false := by
      rcases hc with hc | hc <;>
        exact ⟨FaultConfig.switch_of_ctrl hc (by decide), FaultConfig.switch_of_ctrl hc (by decide)⟩
    obtain ⟨hok, -⟩ := exec_decode_by256 hm hp hrec hsw.1 hsw.2
    rw [hseq0 hs, haddr0 ha] at hok
    exact hok hr
  · have h2 : s.fi.switch 2 = true := FaultConfig.switch_of_ctrl hc (by decide)
    have h3 : s.fi.switch 3 = false := FaultConfig.switch_of_ctrl hc (by decide)
    rw [exec_decode_of_vector_fault hp hrec (.inl h2), h2, h3]
    rfl
  · have h2 : s.fi.switch 2 = false := FaultConfig.switch_of_ctrl hc (by decide)
    have h3 : s.fi.switch 3 = true := FaultConfig.switch_of_ctrl hc (by decide)
    rw [exec_decode_of_vector_fault hp hrec (.inr h3), h2, h3]
    rfl
  · obtain ⟨hok, -⟩ := exec_decode_by256 hm hp hrec (FaultConfig.switch_of_ctrl hc (by decide))
      (FaultConfig.switch_of_ctrl hc (by decide))
    rw [wireSeq_eq, haddr0 ha] at hok
    exact hok hr
  · have hend := exec_decode_by256 hm hp hrec (FaultConfig.switch_of_ctrl hc (by decide))
      (FaultConfig.switch_of_ctrl hc (by decide))
    rw [hseq0 hs] at hend
    exact hend

end Sys2Proof.Machine
end

section
/-! PROOF. 30_encoding.md R88 and 42_decode.md R164: the copying of `loopback`, and the round trip through it. -/

namespace Sys2Proof.Machine

/-! ## Loopback -/

/-- The two accesses that copy the byte at offset `i` (30_encoding.md R88). -/
def copyByteEvents (i : Nat) : List HostEvent :=
  [.read Reg.txBuf.number i, .writeBack Reg.rxBuf.number i]

/-- A write-back to `RX_BUF` stores a byte where the buffer has room for it (20_memory.md R57). -/
theorem State.hostWrite_rxBuf (s : State) (i : Nat) (b : Byte) :
    s.hostWrite Reg.rxBuf.number i (b.setWidth 32) =
      .next { s with rx := if i < s.params.rxCap.val then s.rx.write i b else s.rx } := by
  by_cases hi : i < s.params.rxCap.val
  · rw [State.hostWrite_reg s _ (by decide) hi, State.writeReg, if_pos hi, BitVec.setWidth_setWidth_of_le b (by decide),
      BitVec.setWidth_eq]
  · have hout : ∀ r : Reg, r.number = Reg.rxBuf.number → ¬ i < r.length s.params := by
      intro r hr
      rw [Reg.number_inj hr]
      exact hi
    rw [(State.access_outside hout _).1, if_neg hi]

/-- The same as a step: the value last read is written back. -/
theorem step_writeBack_rxBuf {s : State} {i : Nat} {rest : List HostEvent} {b : Byte}
    (hs : s.inbox = .writeBack Reg.rxBuf.number i :: rest) (hb : s.readData = b.setWidth 32) :
    step s = .next { s with inbox := rest, rx := if i < s.params.rxCap.val then s.rx.write i b else s.rx } := by
  rw [step_cons hs, perform_writeBack, ← State.hostWrite_rxBuf { s with inbox := rest } i b, ← hb]

/-- The two steps that copy one written byte. -/
theorem runSteps_copyByte {s : State} {i : Nat} {b : Byte} (hi : i < 49) (hb : s.tx.read i = some b)
    (rest : List HostEvent) :
    runSteps 2 { s with inbox := copyByteEvents i ++ rest } = .next { s with
      inbox := rest, rx := if i < s.params.rxCap.val then s.rx.write i b else s.rx, readData := b.setWidth 32 } := by
  have hr : ({ s with inbox := copyByteEvents i ++ rest } : State).hostRead Reg.txBuf.number i = .ok (b.setWidth 32) := by
    rw [State.hostRead_reg _ hi, State.readReg, State.txByte, Memory.readOr_ok.2 hb]
    rfl
  exact (runSteps_succ 1 (step_read_ok rfl hr)).trans (runSteps_succ 0 (step_writeBack_rxBuf rfl rfl))

/-- The copying of the first `n` bytes, by induction on `n`: the last one comes after those before it. -/
theorem runSteps_copy {s : State} (hw : ∀ x, x < 49 → (s.tx.read x).isSome) {n : Nat} (hn : n ≤ 49)
    (rest : List HostEvent) :
    ∃ (m : Memory) (v : Word),
      runSteps (2 * n) { s with inbox := (List.range n).flatMap copyByteEvents ++ rest } =
        .next { s with inbox := rest, rx := m, readData := v } ∧
      ∀ x, m.read x = if x < n ∧ x < s.params.rxCap.val then s.tx.read x else s.rx.read x := by
  induction n generalizing rest with
  | zero => exact ⟨s.rx, s.readData, rfl, fun x => by rw [if_neg (by omega)]⟩
  | succ n ih =>
    obtain ⟨m, v, hrun, hread⟩ := ih (by omega) (copyByteEvents n ++ rest)
    obtain ⟨b, hb⟩ := Option.isSome_iff_exists.1 (hw n (by omega))
    have hlast := runSteps_copyByte (s := { s with rx := m, readData := v }) (i := n) (by omega) hb rest
    refine ⟨if n < s.params.rxCap.val then m.write n b else m, b.setWidth 32, ?_, fun x => ?_⟩
    · rw [List.range_succ, List.flatMap_append, List.append_assoc, List.flatMap_singleton]
      exact (runSteps_add (2 * n) 2 hrun).trans hlast
    · by_cases hcap : n < s.params.rxCap.val
      · rw [if_pos hcap, Memory.read_write, hread]
        by_cases hx : x = n
        · rw [if_pos hx, if_pos (by omega), hx, hb]
        · have hiff : (x < n + 1 ∧ x < s.params.rxCap.val) ↔ (x < n ∧ x < s.params.rxCap.val) := by omega
          simp only [if_neg hx, hiff]
      · have hiff : (x < n + 1 ∧ x < s.params.rxCap.val) ↔ (x < n ∧ x < s.params.rxCap.val) := by omega
        simp only [if_neg hcap, hread, hiff]

/-- The 99 accesses of loopback: the 49 copies, then 49 into `RX_LEN`. -/
theorem runSteps_loopback {s : State} (hw : ∀ x, x < 49 → (s.tx.read x).isSome) (rest : List HostEvent) :
    ∃ (m : Memory) (v : Word),
      runSteps 99 { s with inbox := HostLine.loopback.expand ++ rest } =
        .next { s with inbox := rest, rx := m, rxLen := 49, readData := v } ∧
      ∀ x, m.read x = if x < 49 ∧ x < s.params.rxCap.val then s.tx.read x else s.rx.read x := by
  obtain ⟨m, v, hrun, hread⟩ := runSteps_copy hw (Nat.le_refl 49) (writeEvent .rxLen 0 49 :: rest)
  refine ⟨m, v, ?_, hread⟩
  have hlen := step_write (s := { s with inbox := writeEvent .rxLen 0 49 :: rest, rx := m, readData := v }) (r := .rxLen)
    rfl (by decide) Nat.one_pos
  rw [HostLine.expand, List.append_assoc]
  exact (runSteps_add 98 1 hrun).trans (runSteps_succ 0 hlen)

/-- Settles O26, by the memory that the 99 accesses leave. -/
theorem loopbackCopiesTheFrame : Obligations.LoopbackCopiesTheFrame := by
  intro s rest hw
  obtain ⟨m, v, hrun, hread⟩ := runSteps_loopback hw rest
  exact ⟨_, hrun, rfl, fun x h1 h2 => (hread x).trans (if_pos ⟨h1, h2⟩), fun x hx => (hread x).trans (if_neg hx)⟩

/-! ## The round trip -/

/-- A step whose next event issues a command. -/
theorem step_commandEvent (s : State) (c : Instr) (rest : List HostEvent) :
    step { s with inbox := commandEvent c :: rest } = exec c { s with inbox := rest } := by
  have hword : ({ s with inbox := commandEvent c :: rest } : State).issuedWord = some (encode c) := by
    simp [State.issuedWord, commandEvent]
  rw [step_of_issuedWord hword, issue_command (decode_eq_command.2 rfl)]
  rfl

/-- The packet that DECODE makes of a packet's fields on the wire (42_decode.md R156, R164). -/
def Packet.decoded (mult : AddrMult) (pk : Packet) : Packet :=
  ⟨pk.sid, BitVec.ofNat 16 (decodedAddr mult (pk.addr.extractLsb' 8 8) (pk.addr.extractLsb' 0 8)), pk.seq⟩

theorem Packet.decoded_by256 (pk : Packet) : pk.decoded .by256 = pk := by
  rw [Packet.decoded, decodedAddr_by256, BitVec.ofNat_toNat, BitVec.setWidth_eq]

theorem Packet.decoded_by255_addr {pk : Packet} (hr : pk.InRange) :
    (pk.decoded .by255).addr.toNat = pk.addr.toNat - pk.addr.toNat / 256 := by
  obtain ⟨-, hmax⟩ := hr
  rw [addrMax] at hmax
  rw [Packet.decoded, decodedAddr_by255, toNat_ofNat_addr (by omega)]

/-- With the multiplier 255 only an address without a high byte comes back (42_decode.md R164). -/
theorem Packet.decoded_by255_eq_iff {pk : Packet} (hr : pk.InRange) : pk.decoded .by255 = pk ↔ pk.addr.toNat ≤ 255 := by
  have haddr := Packet.decoded_by255_addr hr
  constructor
  · intro h
    rw [h] at haddr
    omega
  · intro h
    have heq : (pk.decoded .by255).addr = pk.addr := BitVec.eq_of_toNat_eq (by omega)
    exact congrArg (fun a => (⟨pk.sid, a, pk.seq⟩ : Packet)) heq

/-- With the fault configuration off a packet in range is decoded, with either multiplier (42_decode.md R164). -/
theorem exec_decode_of_noFault {d : State} {p : Params} {pk : Packet} {f : FaultConfig} (hp : d.params = p)
    (h : d.Receives (wireFrame p pk f)) (hc : f.ctrl &&& 0x0F = 0) (hs : f.seqOffset = 0) (ha : f.addrOffset = 0)
    (hr : pk.InRange) :
    exec .decode d = .next { d with
      dec := pk.decoded p.addrDecodeMult, decValid := true, written := { d.written with dec := true }
      err := ⟨0, 0, 0, 0, 0⟩ } := by
  obtain ⟨hmin, hmax⟩ := hr
  rw [addrMin] at hmin
  rw [addrMax] at hmax
  have hseq : wireSeq pk f = pk.seq := by rw [wireSeq, hs]; exact BitVec.add_zero _
  have haddr : wireAddr pk f = pk.addr := by rw [wireAddr, ha]; exact BitVec.add_zero _
  obtain ⟨hok, -⟩ := exec_decode_of_wireFrame hp h (FaultConfig.switch_of_ctrl hc (by decide))
    (FaultConfig.switch_of_ctrl hc (by decide)) rfl
  rw [hseq, haddr] at hok
  refine hok ?_
  cases p.addrDecodeMult with
  | by255 => rw [decodedAddr_by255]; omega
  | by256 => rw [decodedAddr_by256]; omega

/-- The accesses of the round trip's script, one line after another. -/
theorem expandScript_roundTrip (n : Int) (rest : List HostEvent) :
    expandScript [.command .encode, .loopback, .wr .rxLen n, .command .decode] ++ rest =
      commandEvent .encode ::
        (HostLine.loopback.expand ++ (writeEvent .rxLen 0 n :: commandEvent .decode :: rest)) := by
  simp [expandScript, HostLine.expand]

/-- ENCODE and loopback leave the wire frame in the receive buffer, as far as it has room. -/
theorem runSteps_encode_loopback {s : State} (hv : s.pktValid = true) (rest : List HostEvent) :
    ∃ (tx rx : Memory) (v : Word),
      runSteps 100 { s with inbox := commandEvent .encode :: (HostLine.loopback.expand ++ rest) } =
        .next { s with
          inbox := rest, tx := tx, txLen := 49, err := ⟨0, 0, 0, 0, 0⟩, rx := rx, rxLen := 49, readData := v } ∧
      ∀ x, x < 49 → x < s.params.rxCap.val → rx.read x = (wireFrame s.params s.pkt s.fi)[x]? := by
  obtain ⟨tx, henc, htx⟩ := exec_encode_held (s := { s with inbox := HostLine.loopback.expand ++ rest }) hv
  have htx' (x : Nat) (hx : x < 49) : tx.read x = (wireFrame s.params s.pkt s.fi)[x]? := (htx x).trans (if_pos hx)
  have hwritten (x : Nat) (hx : x < 49) : (tx.read x).isSome := by
    rw [htx' x hx]
    simpa [frameLen] using hx
  obtain ⟨rx, v, hloop, hrx⟩ :=
    runSteps_loopback (s := { s with tx := tx, txLen := 49, err := ⟨0, 0, 0, 0, 0⟩ }) hwritten rest
  exact ⟨tx, rx, v, (runSteps_succ 99 ((step_commandEvent s .encode _).trans henc)).trans hloop,
    fun x hx hcap => (hrx x).trans ((if_pos ⟨hx, hcap⟩).trans (htx' x hx))⟩

/-- A length written to `RX_LEN`, then DECODE. -/
theorem runSteps_rxLen_decode {s t : State} {n : Int} {rest : List HostEvent}
    (h : exec .decode { s with inbox := rest, rxLen := (BitVec.ofInt 32 n).setWidth 16 } = .next t) :
    runSteps 2 { s with inbox := writeEvent .rxLen 0 n :: commandEvent .decode :: rest } = .next t :=
  (runSteps_succ 1 (step_write (r := .rxLen) rfl (by decide) Nat.one_pos)).trans
    (runSteps_succ 0 ((step_commandEvent { s with rxLen := (BitVec.ofInt 32 n).setWidth 16 } .decode rest).trans h))

/-- The 102 steps of the round trip end with the decoded packet (42_decode.md R164). -/
theorem runSteps_roundTrip {s : State} (hv : s.pktValid = true) (hr : s.pkt.InRange) (hc : s.fi.ctrl &&& 0x0F = 0)
    (hs : s.fi.seqOffset = 0) (ha : s.fi.addrOffset = 0) {n : Int}
    (hn : 47 ≤ ((BitVec.ofInt 32 n).setWidth 16).toNat) (rest : List HostEvent) :
    ∃ t, runSteps 102
        { s with
          inbox := expandScript [.command .encode, .loopback, .wr .rxLen n, .command .decode] ++ rest } = .next t ∧
      t.inbox = rest ∧ t.err = ⟨0, 0, 0, 0, 0⟩ ∧ t.decValid = true ∧ t.dec = s.pkt.decoded s.params.addrDecodeMult := by
  obtain ⟨tx, rx, v, hrun, hrx⟩ := runSteps_encode_loopback hv (writeEvent .rxLen 0 n :: commandEvent .decode :: rest)
  have hread (x : Nat) (h1 : 18 ≤ x) (h2 : x ≤ 46) : rx.read x = (wireFrame s.params s.pkt s.fi)[x]? := by
    have hcap := s.params.rxCap.property
    exact hrx x (by omega) (by omega)
  have hlast := runSteps_rxLen_decode (n := n) (rest := rest)
    (s := { s with tx := tx, txLen := 49, err := ⟨0, 0, 0, 0, 0⟩, rx := rx, rxLen := 49, readData := v })
    (exec_decode_of_noFault rfl ⟨hn, hread⟩ hc hs ha hr)
  rw [expandScript_roundTrip]
  exact ⟨_, (runSteps_add 100 2 hrun).trans hlast, rfl, rfl, rfl, rfl⟩

/-- Settles O27, by what the round trip makes of the packet. -/
theorem encodeLoopbackDecodeRoundTrip : Obligations.EncodeLoopbackDecodeRoundTrip := by
  intro s rest n hv hr hc hs ha hn
  have hlen : 47 ≤ ((BitVec.ofInt 32 n).setWidth 16).toNat := by
    rcases hn with rfl | rfl | rfl <;> decide
  obtain ⟨t, hrun, hinbox, herr, hvalid, hdec⟩ := runSteps_roundTrip hv hr hc hs ha hlen rest
  refine ⟨t, hrun, hinbox, herr, hvalid, by rw [hdec]; rfl, by rw [hdec]; rfl, fun hm => ?_, fun hm => ?_⟩
  · rw [hdec, hm, Packet.decoded_by256]
  · rw [hdec, hm]
    exact ⟨Packet.decoded_by255_addr hr, Packet.decoded_by255_eq_iff hr⟩

end Sys2Proof.Machine
end
